-- ==== Sys2Proof/Word.lean ====
section
/-! DEFINITION. The word types of the SAMEthing CORE: bytes, samples and binary32 bit patterns. -/

namespace Sys2Proof

/-- One character or data byte; bit 0 is the least significant bit (R12). -/
abbrev Byte := BitVec 8

/-- One output sample, format `PCM16`: two's-complement signed 16-bit (R12, R81). -/
abbrev Sample := BitVec 16

/-- The bit pattern of one binary32 value (R13); the datapath has no other floating-point format (R130). -/
abbrev F32 := BitVec 32

/-- A 2-bit word: a command code of format `CMDW` (R70) or an entry of `SCHEDULE` (R74). -/
abbrev Code := BitVec 2

end Sys2Proof
end

