-- ==== Sys2Proof/Syntax.lean ====
section
/-! DEFINITION. The instructions: the four `CMD` codes and the four `SCHEDULE` micro-operations, one constructor for each row of
spec/opcode_table.json. No instruction has an operand field (R70, R74): operands are registers. -/

namespace Sys2Proof

/-- The instructions of the opcode table (R6): host-level commands and micro-level operations. -/
inductive Instr where
  /-- `NOP`, `CMDW` code 00 (R72). -/
  | nop
  /-- `CONFIGURE`, `CMDW` code 01 (R100). -/
  | configure
  /-- `GENERATE_CHUNK`, `CMDW` code 10 (R160). -/
  | generateChunk
  /-- The reserved `CMDW` code 11, table row `RESERVED_CMD_3` (R75 (a), R181). -/
  | reservedCmd3
  /-- `EMIT_AFSK_HDR`, `SCHEDULE` code 00 (R120). -/
  | emitAfskHdr
  /-- `EMIT_AFSK_EOM`, `SCHEDULE` code 01 (R133). -/
  | emitAfskEom
  /-- `EMIT_ATTN`, `SCHEDULE` code 10 (R140). -/
  | emitAttn
  /-- `EMIT_SILENCE`, `SCHEDULE` code 11 (R150). -/
  | emitSilence
  deriving DecidableEq, Repr, Inhabited

/-- The two places an instruction word stands in: the command port (R70) and the dispatch table (R74). The same two bits
mean different instructions in the two. -/
inductive Format where
  /-- Format `CMDW`: a code written to `CMD` (R70). -/
  | cmdw
  /-- Format `SCHEDULE`: a synthesizer code (R74). -/
  | schedule
  deriving DecidableEq, Repr, Inhabited

end Sys2Proof
end

