-- ==== Sys2Proof/WellFormed.lean ====
section
/-! DEFINITION. Well-formedness. An instruction has no operand to check (R70, R74), so the one check is that an instruction
stands in a place that can hold it: the host cannot command a micro-operation, and the dispatch table holds no command. -/

namespace Sys2Proof

/-- The format that has a code for the instruction (R71, R74). -/
def Instr.format : Instr → Format
  | .nop | .configure | .generateChunk | .reservedCmd3 => .cmdw
  | .emitAfskHdr | .emitAfskEom | .emitAttn | .emitSilence => .schedule

/-- The instruction may stand in a word of the format. -/
def Instr.wellFormed (f : Format) (i : Instr) : Bool := i.format = f

end Sys2Proof
end

