-- ==== Sys2Proof/Decode.lean ====
section
/-! DEFINITION. The decoder of both formats, the encoder, and the reading of an opcode-table word. -/

namespace Sys2Proof

/-- Why bytes are no instruction word. The words themselves are 2 bits (R70), and each of the four codes of a format has a
meaning, so what is rejected is a byte string that is not one 2-bit word. -/
inductive Reject where
  /-- No byte at all. -/
  | noWord
  /-- A bit above bit 1 is set: the word has two bits (R70). -/
  | bitsOutsideWord
  /-- More than one byte: there is one instruction length (R70, R84). -/
  | extraBytes
  deriving DecidableEq, Repr

/-- The command code written to `CMD` (R71, R75 (a)). -/
def decodeCmdw (w : Code) : Instr :=
  match w.toNat with
  | 0 => .nop
  | 1 => .configure
  | 2 => .generateChunk
  | _ => .reservedCmd3

/-- The synthesizer code of a `SCHEDULE` entry (R74). -/
def decodeSchedule (w : Code) : Instr :=
  match w.toNat with
  | 0 => .emitAfskHdr
  | 1 => .emitAfskEom
  | 2 => .emitAttn
  | _ => .emitSilence

/-- A 2-bit word in a format (R71, R74). -/
def decodeWord (f : Format) (w : Code) : Instr :=
  match f with
  | .cmdw => decodeCmdw w
  | .schedule => decodeSchedule w

/-- The decoder on bytes: one byte that holds the 2-bit word in bits [1:0] and zeros above. -/
def decode (f : Format) (bytes : List Byte) : Except Reject Instr :=
  match bytes with
  | [] => .error .noWord
  | [b] => if b.toNat < 4 then .ok (decodeWord f (b.setWidth 2)) else .error .bitsOutsideWord
  | _ :: _ :: _ => .error .extraBytes

/-- The code of an instruction in its own format (R71, R74). -/
def encode : Instr → Code
  | .nop => 0
  | .configure => 1
  | .generateChunk => 2
  | .reservedCmd3 => 3
  | .emitAfskHdr => 0
  | .emitAfskEom => 1
  | .emitAttn => 2
  | .emitSilence => 3

/-- The instruction's word laid out as one byte. -/
def encodeBytes (i : Instr) : List Byte := [(encode i).setWidth 8]

/-- The table's row `EMIT_AFSK_EOM` carries a field `len` at bit 20, made by the reader from the source's constant 20; the
spec's rules give the word no such bit, so it is dropped (log entry 5). -/
def dropTableLenBit (w : Nat) : Nat :=
  if w / 2 ^ 20 % 2 = 1 then w - 2 ^ 20 else w

/-- The format an opcode-table word is read in. The table gives both formats the same 2-bit words, so a word alone does not
say which; a word of at most one byte is the command port's, and only a longer one is a `SCHEDULE` entry (log entry 5). -/
def tableFormat (nbits : Nat) : Format := if nbits ≤ 8 then .cmdw else .schedule

/-- The instruction the decoder reads from an opcode-table word (log entry 5). -/
def decodeTableWord (nbits w : Nat) : Option Instr :=
  let v := match tableFormat nbits with
    | .cmdw => w
    | .schedule => dropTableLenBit w
  if v < 256 then (decode (tableFormat nbits) [BitVec.ofNat 8 v]).toOption else none

end Sys2Proof
end

