-- ==== Sys2Proof/Machine/Registers.lean ====
section
/-! DEFINITION. The records the registers come in: the input record AlertHeader, the stage register's values, the
GenerationContext, the fault causes, the host's actions and the port a synthesizer returns its sample through. They stand
before Config because the free values of Config have these types. -/

namespace Sys2Proof.Machine

/-- The input record `AH_*` (R20, R21, R22): banks of byte registers of exactly the declared widths, so that an oversized
field cannot be expressed (R194). Index 0 of a field is its first character. -/
structure AlertHeader where
  /-- `AH_ORG`, the originator code. -/
  org : Vector Byte 3
  /-- `AH_EVT`, the event code. -/
  evt : Vector Byte 3
  /-- `AH_LOC`, 31 location entries of 6 bytes (R23). -/
  loc : Vector (Vector Byte 6) 31
  /-- `AH_VTP`, the valid time period. -/
  vtp : Vector Byte 4
  /-- `AH_OTIME`, the originator time. -/
  otime : Vector Byte 7
  /-- `AH_CALL`, the callsign. -/
  call : Vector Byte 8
  /-- `AH_ATTN_SECONDS`, the attention duration in whole seconds, 8 bits unsigned (R22). -/
  attnSeconds : BitVec 8
  deriving DecidableEq, Repr, Inhabited

/-- The values `STAGE` can hold (R27, R73): 14 live stages in the order they are emitted and the terminal sentinel `DONE`.
Code 15 is never held, so it is unrepresentable (R75 (c); log entry 14). -/
inductive Stage where
  | hdr1 | sil1 | hdr2 | sil2 | hdr3 | sil3 | attn | sil4 | eom1 | sil5 | eom2 | sil6 | eom3 | sil7 | done
  deriving DecidableEq, Repr, Inhabited

/-- The stage's numeric code, 0 to 14 (R73). -/
def Stage.index : Stage → Nat
  | .hdr1 => 0 | .sil1 => 1 | .hdr2 => 2 | .sil2 => 3 | .hdr3 => 4 | .sil3 => 5 | .attn => 6 | .sil4 => 7
  | .eom1 => 8 | .sil5 => 9 | .eom2 => 10 | .sil6 => 11 | .eom3 => 12 | .sil7 => 13 | .done => 14

/-- The 4-bit register image of `STAGE` (R11, R27, R73). -/
def Stage.code (st : Stage) : BitVec 4 := BitVec.ofNat 4 st.index

/-- The stage with a given code; 14 and above give the terminal sentinel (R73). -/
def Stage.ofIndex : Nat → Stage
  | 0 => .hdr1 | 1 => .sil1 | 2 => .hdr2 | 3 => .sil2 | 4 => .hdr3 | 5 => .sil3 | 6 => .attn | 7 => .sil4
  | 8 => .eom1 | 9 => .sil5 | 10 => .eom2 | 11 => .sil6 | 12 => .eom3 | 13 => .sil7 | _ => .done

/-- The index a live stage has in `REMAINING` and `SCHEDULE`; none for `DONE` (R64). -/
def Stage.live (st : Stage) : Option (Fin 14) :=
  if h : st.index < 14 then some ⟨st.index, h⟩ else none

/-- The generation context (R20, R24 to R31). -/
structure Context where
  /-- `ENC_BYTES`, the encoded header (R24). -/
  encBytes : Vector Byte 268
  /-- `ENC_LEN`, the number of valid bytes of `ENC_BYTES` (R24). -/
  encLen : BitVec 9
  /-- `REMAINING`, one remaining-sample counter per live stage (R28). -/
  remaining : Vector (BitVec 32) 14
  /-- `STAGE`, the current stage (R27). -/
  stage : Stage
  /-- `AFSK_DATA_POS`, the position in the data buffer being read (R29). -/
  dataPos : BitVec 9
  /-- `AFSK_BIT_POS`, the bit index within the current byte (R29). -/
  bitPos : BitVec 3
  /-- `AFSK_SAMPLE_NUM`, the sample index within the current bit (R29). -/
  sampleNum : BitVec 7
  /-- `ATTN_SAMPLE_NUM`, the attention samples emitted in this alert (R30). -/
  attnSampleNum : BitVec 32
  /-- `CHUNK`, the output buffer of 4096 samples (R31). -/
  chunk : Vector Sample 4096
  deriving DecidableEq, Repr, Inhabited

/-- The values `FAULT_CAUSE` can hold (R34, R181): none, or the cause of the first contract violation since `RESET`.
Codes 6 and 7 are never recorded, so they are unrepresentable (U10; log entry 14). -/
inductive Cause where
  | none | noContext | terminalStage | badCommand | noLocation | zeroAttn
  deriving DecidableEq, Repr, Inhabited

/-- The 3-bit register image of `FAULT_CAUSE` (R181). -/
def Cause.code : Cause → BitVec 3
  | .none => 0 | .noContext => 1 | .terminalStage => 2 | .badCommand => 3 | .noLocation => 4 | .zeroAttn => 5

/-- One host-writable byte register of the input record, by name and index (R21, R22, R57). -/
inductive AhReg where
  | org (i : Fin 3)
  | evt (i : Fin 3)
  | loc (k : Fin 31) (i : Fin 6)
  | vtp (i : Fin 4)
  | otime (i : Fin 7)
  | call (i : Fin 8)
  | attnSeconds
  deriving DecidableEq, Repr, Inhabited

/-- What the host can read (D3, R27, R31, R33 to R35): the input record, `CHUNK`, `COUNT`, `STAGE` and the status flags.
`REMAINING`, the AFSK sub-state, `ATTN_SAMPLE_NUM`, `ENC_BYTES` and `ENC_LEN` are hidden from it. -/
inductive HostReg where
  | ah (r : AhReg)
  | chunk (i : Fin 4096)
  | count | stage | configured | fault | faultCause
  deriving DecidableEq, Repr, Inhabited

/-- One action of the host, in the syntax of R82: the `RESET` event (R200), a write of an input register (R21), a read at
rest (R55) or a write of a 2-bit code to the port `CMD` (R32). -/
inductive HostAction where
  | reset
  | write (r : AhReg) (v : Byte)
  | read (r : HostReg)
  | cmd (w : Code)
  deriving DecidableEq, Repr, Inhabited

/-- The path between the Sequencer and a synthesizer, a field of the MODEL'S OWN (log entry 4): nothing in flight; a
micro-operation handed out by its `SCHEDULE` code; or the sample a micro-operation returned (R163). -/
inductive SynthPort where
  | idle
  | dispatched (w : Code)
  | emitted (v : Sample)
  deriving DecidableEq, Repr, Inhabited

end Sys2Proof.Machine
end

