-- ==== Sys2Proof/Config.lean ====
section
/-! DEFINITION. The fixed constants of the hardware (R7, R9), the parameters the spec leaves open (R10) and the free values
(R17). A constant declared `opaque` has no value any proof can see, so a claim about it holds for every value. -/

namespace Sys2Proof.Config

/-- `SAMPLE_RATE`, samples per second (R7). -/
def sampleRate : Nat := 44100

/-- `PREAMBLE_BYTE` (R7). -/
def preambleByte : Byte := 0xAB

/-- `PREAMBLE_LEN` (R7). -/
def preambleLen : Nat := 16

/-- `BIT_RATE`, the binary32 image of 520.83 (R7). No rule uses it: `SAMPLES_PER_BIT` is a constant (R8). -/
def bitRate : F32 := 0x4402351F

/-- `MARK_FREQ`, the binary32 image of 2083.3 (R7). -/
def markFreq : F32 := 0x450234CD

/-- `SPACE_FREQ`, the binary32 image of 1562.5 (R7). -/
def spaceFreq : F32 := 0x44C35000

/-- `ATTN_F1`, the binary32 image of 853.0 (R7). -/
def attnF1 : F32 := 0x44554000

/-- `ATTN_F2`, the binary32 image of 960.0 (R7). -/
def attnF2 : F32 := 0x44700000

/-- `SAMPLE_RATE` as a binary32 constant (R7). -/
def sampleRateF32 : F32 := 0x472C4400

/-- `TWO_PI`, the binary32 value nearest to 2π (R124, D18). -/
def twoPi : F32 := 0x40C90FDB

/-- The binary32 image of `INT16_MAX` = 32767 (R125). -/
def int16MaxF32 : F32 := 0x46FFFE00

/-- The binary32 image of 2 (R141). -/
def twoF32 : F32 := 0x40000000

/-- `INT16_MAX` (R12). -/
def int16Max : Nat := 32767

/-- `SAMPLES_PER_BIT`, the constant 85 (R7, R8). -/
def samplesPerBit : Nat := 85

/-- `SILENCE_SECONDS` (R7). -/
def silenceSeconds : Nat := 1

/-- `EOM_LEN` (R7). -/
def eomLen : Nat := 20

/-- `CHUNK_CAP`, slots of `CHUNK` (R9). -/
def chunkCap : Nat := 4096

/-- `START_CODE_DASH` (R10 (c), R116): false is the spec's value. Every definition that reads it takes it as an argument;
log entry 12. -/
def startCodeDash : Bool := false

/-- `LOC_END_MARKER` (R10 (a), R23): six bytes whose value the source never gives (D22, N2); log entry 1. -/
opaque locEndMarker : Vector Byte 6

/-- The unrestricted sine the parameter `SIN32` is made from (R10 (b), R15): any function from bit patterns to bit patterns.
`Machine/Operands.lean` narrows it to the three properties R15 assumes; log entry 2. -/
opaque rawSin32 : F32 → F32

/-- The unspecified input record after draw number `n` (R17, R39, R200); log entry 3. -/
opaque freeHeader : Nat → Machine.AlertHeader

/-- The unspecified generation context after draw number `n` (R17, R39, R186, R200); log entry 3. -/
opaque freeContext : Nat → Machine.Context

/-- The unspecified `COUNT` after draw number `n` (R17, R39, R186, R200); log entry 3. -/
opaque freeCount : Nat → BitVec 13

/-- What `ATTN_SAMPLE_NUM` holds after it is counted up from its last value (N11), by draw number; log entry 19. -/
opaque freeAttnSampleNum : Nat → BitVec 32

/-- What a `REMAINING` counter holds after it is counted down from 0 (N8), by draw number; log entry 19. -/
opaque freeRemaining : Nat → BitVec 32

end Sys2Proof.Config
end

