-- ==== Sys2Proof/Machine/State.lean ====
section
/-! DEFINITION. The machine's state, what a step can stop with, and the state after reset. -/

namespace Sys2Proof.Machine

/-- Why the model stops. None of these is the spec's `Fault(cause)`, which is a next state with `FAULT` = 1 (R182); each
marks a case the spec leaves without an effect and calls unreachable. -/
inductive Fault where
  /-- `TO_S16` of a value above 32767 in magnitude, an infinity or a NaN (R14, U3): raised by `EMIT_AFSK_HDR`, `EMIT_AFSK_EOM`,
  `EMIT_ATTN` and a `GENERATE_CHUNK` that runs them. Safe: R125 and R146 say no admissible `SIN32` reaches it. -/
  | sampleOutOfRange
  /-- A data byte read outside `ENC_BYTES` or `EOM_BYTES` (R64): raised by `EMIT_AFSK_HDR`, `EMIT_AFSK_EOM` and a
  `GENERATE_CHUNK` that runs them, with `AFSK_DATA_POS` past the memory's end. Safe: no run reaches it. -/
  | dataIndexOutOfRange
  deriving DecidableEq, Repr

/-- Why the model has no meaning for an instruction. -/
inductive Refusal where
  /-- An arm of `exec` not written yet. Safe; no arm raises it. -/
  | notModelled (mnemonic : String)
  deriving DecidableEq, Repr

/-- The state of the SAMEthing CORE (R20). `EOM_BYTES` and `SCHEDULE` are constants and `CMD` stores nothing (R25, R26, R32), so
none of the three is a field. The last three fields are the model's own. -/
structure State where
  /-- `AH_*`, the input record (R21). -/
  header : AlertHeader
  /-- The generation context (R24, R27 to R31). -/
  ctx : Context
  /-- `CONFIGURED` (R33). -/
  configured : Bool
  /-- `FAULT` (R34). -/
  fault : Bool
  /-- `FAULT_CAUSE` (R34). -/
  faultCause : Cause
  /-- `COUNT` (R35). -/
  count : BitVec 13
  /-- The model's own: the path between the Sequencer and a synthesizer; idle at rest (log entry 4). -/
  synth : SynthPort
  /-- The model's own: what the host is going to do, oldest first (log entry 6). -/
  inbox : List HostAction
  /-- The model's own: how many free values have been drawn (log entries 3, 19). -/
  draws : Nat
  deriving DecidableEq, Repr

/-- The state after `RESET` (R39, R200): the three flags are 0 and everything else is unspecified, which is draw number 0 of the
free values; the core is idle and the host has done nothing yet (R201). -/
def State.reset : State where
  header := Config.freeHeader 0
  ctx := Config.freeContext 0
  configured := false
  fault := false
  faultCause := .none
  count := Config.freeCount 0
  synth := .idle
  inbox := []
  draws := 1

end Sys2Proof.Machine
end

