-- ==== Sys2Proof/Machine/Flags.lean ====
section
/-! DEFINITION. The status flags. There are no condition codes (R36) and no floating-point flags (R37): `CONFIGURED`, `FAULT`
and `FAULT_CAUSE` are the only flags, and these are all the ways they are written. -/

namespace Sys2Proof.Machine

/-- Fault entry's flags: `FAULT` <- 1 and `FAULT_CAUSE` <- `cause` (R34, R182). -/
def raiseFlags (cause : Cause) (s : State) : State := { s with fault := true, faultCause := cause }

/-- `RESET`'s flags: all three 0 (R33, R34, R200). -/
def clearFlags (s : State) : State := { s with configured := false, fault := false, faultCause := .none }

/-- The status of a `CONFIGURE` that does not fault: `CONFIGURED` <- 1 and `COUNT` <- 0 (R112). -/
def markConfigured (s : State) : State := { s with configured := true, count := 0 }

end Sys2Proof.Machine
end

