-- ==== Sys2Proof/Machine/Float.lean ====
section
/-! DEFINITION. The binary32 primitives of R13 (D23: IEEE 754, round to nearest, ties to even, no flush to zero, nothing
fused) and the conversion `TO_S16` of R14. Every finite binary32 value is a whole number of units of 2^-149, so each operation
is computed exactly on whole numbers of such units and rounded once. -/

namespace Sys2Proof.Machine

/-- The sign bit. -/
def f32Neg (x : F32) : Bool := x.msb

/-- The pattern without its sign bit: exponent and fraction. Patterns order as the magnitudes they stand for. -/
def f32Abs (x : F32) : Nat := x.toNat % 2 ^ 31

/-- The pattern of infinity; larger patterns are NaNs. -/
def f32Inf : Nat := 0x7F800000

/-- The quiet NaN an operation answers with (log entry 7). -/
def f32Nan : F32 := 0x7FC00000

/-- Neither an infinity nor a NaN. -/
def f32Finite (x : F32) : Bool := f32Abs x < f32Inf

/-- A NaN. -/
def f32IsNan (x : F32) : Bool := f32Inf < f32Abs x

/-- The magnitude an unsigned pattern stands for, in units of 2^-149: subnormals are their fraction, a normal is its 24-bit
significand scaled by its exponent. -/
def patternUnits (p : Nat) : Nat :=
  if p < 2 ^ 23 then p else (2 ^ 23 + p % 2 ^ 23) * 2 ^ (p / 2 ^ 23 - 1)

/-- The magnitude of a finite value in units of 2^-149. -/
def f32Units (x : F32) : Nat := patternUnits (f32Abs x)

/-- The value of a finite pattern in units of 2^-149. -/
def f32Int (x : F32) : Int := if f32Neg x then -(f32Units x : Int) else (f32Units x : Int)

/-- The integer nearest to `num / den`, ties to even. -/
def nearestEven (num den : Nat) : Nat :=
  let q := num / den
  let r := num % den
  if 2 * r < den then q
  else if den < 2 * r then q + 1
  else if q % 2 = 0 then q else q + 1

/-- How many powers of two the last place of a 24-bit significand lies above the unit, for a magnitude whose whole part is
`q` units. -/
def lastPlace (q : Nat) : Nat := Nat.log2 q - 23

/-- `fl32` on magnitudes (R13): the pattern nearest to `num / den` units of 2^-149, ties to even; infinity past the largest
finite value. The sum carries a significand that rounds up to 2^24 into the exponent. -/
def roundUnits (num den : Nat) : Nat :=
  let e := lastPlace (num / den)
  min (2 ^ 23 * e + nearestEven num (den * 2 ^ e)) f32Inf

/-- A pattern with a sign. -/
def f32Pack (neg : Bool) (p : Nat) : F32 := BitVec.ofNat 32 ((if neg then 2 ^ 31 else 0) + p)

/-- `F32(n)`: a non-negative integer converted (R13; log entry 10). -/
def f32OfNat (n : Nat) : F32 := f32Pack false (roundUnits (2 ^ 149 * n) 1)

/-- `a (+) b` (R13). An exact sum of zero is +0 unless both addends are -0. -/
def f32Add (a b : F32) : F32 :=
  if f32IsNan a || f32IsNan b then f32Nan
  else if f32Finite a && f32Finite b then
    let v := f32Int a + f32Int b
    if v = 0 then f32Pack (f32Neg a && f32Neg b) 0
    else f32Pack (v < 0) (roundUnits v.natAbs 1)
  else if f32Finite b then a
  else if f32Finite a then b
  else if f32Neg a = f32Neg b then a else f32Nan

/-- `a (*) b` (R13). -/
def f32Mul (a b : F32) : F32 :=
  let neg := f32Neg a != f32Neg b
  if f32IsNan a || f32IsNan b then f32Nan
  else if f32Finite a && f32Finite b then
    f32Pack neg (roundUnits (f32Units a * f32Units b) (2 ^ 149))
  else if f32Abs a = 0 || f32Abs b = 0 then f32Nan
  else f32Pack neg f32Inf

/-- `a (/) b` (R13). -/
def f32Div (a b : F32) : F32 :=
  let neg := f32Neg a != f32Neg b
  if f32IsNan a || f32IsNan b then f32Nan
  else if f32Finite a && f32Finite b then
    if f32Abs b = 0 then (if f32Abs a = 0 then f32Nan else f32Pack neg f32Inf)
    else f32Pack neg (roundUnits (2 ^ 149 * f32Units a) (f32Units b))
  else if f32Finite b then f32Pack neg f32Inf
  else if f32Finite a then f32Pack neg 0
  else f32Nan

/-- `TO_S16(y)` (R14): the integer nearest to `y`, half-way cases away from zero; none where |y| > 32767 or `y` is no number. -/
def toS16 (y : F32) : Option Sample :=
  if f32Finite y && f32Units y ≤ 32767 * 2 ^ 149 then
    let k : Nat := (2 ^ 149 + 2 * f32Units y) / 2 ^ 150
    some (BitVec.ofInt 16 (if f32Neg y then -(k : Int) else (k : Int)))
  else none

end Sys2Proof.Machine
end

