-- ==== Sys2Proof/Machine/Operands.lean ====
section
/-! DEFINITION. The operand forms: the constants `SCHEDULE` and `EOM_BYTES`, the parameter `SIN32`, the location list, and the
bytes, bits and frequencies the synthesizers select. An instruction has no operand field: these are all its operands. -/

namespace Sys2Proof.Machine

/-- `SCHEDULE`, the read-only dispatch table, indexed by stage code (R26, R74). -/
def schedule : Vector Code 14 := #v[0, 3, 0, 3, 0, 3, 2, 3, 1, 3, 1, 3, 1, 3]

/-- `EOM_BYTES`, the read-only EOM burst (R25, R78). -/
def eomBytes : Vector Byte 20 :=
  #v[0xAB, 0xAB, 0xAB, 0xAB, 0xAB, 0xAB, 0xAB, 0xAB, 0xAB, 0xAB, 0xAB, 0xAB, 0xAB, 0xAB, 0xAB, 0xAB, 0x4E, 0x4E, 0x4E, 0x4E]

/-- A value of magnitude at most 1.0. -/
def withinOne (x : F32) : Bool := f32Abs x ≤ 0x3F800000

/-- `raw` narrowed to the three properties R15 assumes: zero at +0.0, bounded by 1.0 at every finite argument, and a function of
the argument's bits alone. A function that has the properties is left as it is, so every admissible `SIN32` is one of these
(log entry 2). -/
def admissibleSin (raw : F32 → F32) (x : F32) : F32 :=
  if x = 0 then 0
  else if f32Finite x && !withinOne (raw x) then 0
  else raw x

/-- `SIN32`, the sine of the datapath (R10 (b), R15). -/
def sin32 : F32 → F32 := admissibleSin Config.rawSin32

/-- `count_locations()` (R23, R106): the index of the first entry equal to the marker, or 31. -/
def countLocations (marker : Vector Byte 6) (loc : Vector (Vector Byte 6) 31) : Nat :=
  loc.toList.findIdx (· = marker)

/-- The data bit a slot step sends (R52, R121): bit `bitPos` of the byte, bit 0 the least significant. -/
def dataBit (byte : Byte) (bitPos : BitVec 3) : Bool := byte.getLsbD bitPos.toNat

/-- The tone of a bit (R80, R122). -/
def toneFreq (bit : Bool) : F32 := if bit then Config.markFreq else Config.spaceFreq

/-- `t` = `F32(n) (/) F32(44100)` (R123, R141). -/
def sampleTime (n : Nat) : F32 := f32Div (f32OfNat n) Config.sampleRateF32

/-- `x` = `(TWO_PI (*) t) (*) f` (R124, R141). -/
def phase (n : Nat) (f : F32) : F32 := f32Mul (f32Mul Config.twoPi (sampleTime n)) f

/-- The sample of a bit period at index `n` (R122 to R125), under a sine. -/
def afskSample (sin : F32 → F32) (bit : Bool) (n : Nat) : Option Sample :=
  toS16 (f32Mul (sin (phase n (toneFreq bit))) Config.int16MaxF32)

/-- The attention sample at index `n` (R141), under a sine. -/
def attnSample (sin : F32 → F32) (n : Nat) : Option Sample :=
  let s1 := sin (phase n Config.attnF1)
  let s2 := sin (phase n Config.attnF2)
  toS16 (f32Mul (f32Div (f32Add s1 s2) Config.twoF32) Config.int16MaxF32)

/-- A byte register of the input record (R21). -/
def readAh (h : AlertHeader) : AhReg → Byte
  | .org i => h.org[i]
  | .evt i => h.evt[i]
  | .loc k i => h.loc[k][i]
  | .vtp i => h.vtp[i]
  | .otime i => h.otime[i]
  | .call i => h.call[i]
  | .attnSeconds => h.attnSeconds

/-- A host write of one byte register of the input record (R21). -/
def writeAh (h : AlertHeader) (r : AhReg) (v : Byte) : AlertHeader :=
  match r with
  | .org i => { h with org := h.org.set i v }
  | .evt i => { h with evt := h.evt.set i v }
  | .loc k i => { h with loc := h.loc.set k (h.loc[k].set i v) }
  | .vtp i => { h with vtp := h.vtp.set i v }
  | .otime i => { h with otime := h.otime.set i v }
  | .call i => { h with call := h.call.set i v }
  | .attnSeconds => { h with attnSeconds := v }

end Sys2Proof.Machine
end

