-- ==== Sys2Proof/Machine/Ops.lean ====
section
/-! DEFINITION. The shared operations: fault entry, the `RESET` event, the cleared context, and the accesses to `ENC_BYTES`,
`CHUNK` and `REMAINING`. There is no return from a fault (R184): only `RESET` leaves the fault state. -/

namespace Sys2Proof.Machine

/-- A fresh free value for everything the spec makes unspecified together: the generation context and `COUNT` (R186, R200). -/
def forgetContext (s : State) : State :=
  { s with ctx := Config.freeContext s.draws, count := Config.freeCount s.draws, draws := s.draws + 1 }

/-- `raise Fault(cause)` (R182): the flags are written and the command ends. The context, `CHUNK` with it, and `COUNT` are
unspecified from then on (R186; log entry 9). There is no handler, no vector and no saved address. -/
def faultEntry (cause : Cause) (s : State) : State := raiseFlags cause (forgetContext s)

/-- A command of a core that accepts commands only while `FAULT` = 0 (R101, R161 (a), R183, R185). -/
def unlessFaulted (command : State → State) (s : State) : State := if s.fault then s else command s

/-- The `RESET` event (R200): the flags are cleared and every other register is unspecified. -/
def resetEvent (s : State) : State :=
  clearFlags { forgetContext s with header := Config.freeHeader s.draws }

/-- The context with every register zero (R102, D14). -/
def clearedContext : Context where
  encBytes := Vector.replicate 268 0
  encLen := 0
  remaining := Vector.replicate 14 0
  stage := .hdr1
  dataPos := 0
  bitPos := 0
  sampleNum := 0
  attnSampleNum := 0
  chunk := Vector.replicate 4096 0

/-- `ENC_BYTES` holding a byte string from index 0 on, zero after it (R102, R103). -/
def encBuffer (bytes : List Byte) : Vector Byte 268 := Vector.ofFn fun i => bytes.getD i 0

/-- `MemWrite(CHUNK, i, 2, v)` (R13, R163). -/
def storeSample (i : Nat) (v : Sample) (c : Context) : Context :=
  { c with chunk := c.chunk.setIfInBounds i v }

/-- A counter up by one; past the register's last value nothing says what it holds (N11), so it holds the free value. -/
def countUp (free n : BitVec 32) : BitVec 32 := if n.toNat + 1 < 2 ^ 32 then n + 1 else free

/-- A counter down by one; below 0 nothing says what it holds (N8), so it holds the free value. -/
def countDown (free n : BitVec 32) : BitVec 32 := if n = 0 then free else n - 1

/-- `REMAINING[k]` <- `REMAINING[k]` - 1 (R164; log entry 19). -/
def decrementRemaining (free : BitVec 32) (k : Fin 14) (c : Context) : Context :=
  { c with remaining := c.remaining.set k (countDown free c.remaining[k]) }

/-- The stage advance (R165): `STAGE` <- `k` + 1 where `REMAINING[k]` is 0, unchanged otherwise. -/
def advanceStage (k : Fin 14) (c : Context) : Context :=
  if c.remaining[k] = 0 then { c with stage := Stage.ofIndex (k + 1) } else c

/-- A micro-operation's outcome as a machine state: the context it wrote, and the sample it returns on the path to the
Sequencer (log entry 4). -/
def deliver (s : State) : Except Fault (Sample × Context) → Host.Outcome State Fault Refusal
  | .ok (v, c) => .next { s with ctx := c, synth := .emitted v }
  | .error f => .fault f

/-- Byte `j` of `CHUNK` read as a byte stream (R51): slot `i` is bytes `2i` (low) and `2i+1` (high). -/
def chunkByte (c : Context) (j : Nat) : Option Byte :=
  (c.chunk[j / 2]?).map fun (v : Sample) => if j % 2 = 0 then v.setWidth 8 else (v >>> 8).setWidth 8

end Sys2Proof.Machine
end

