-- ==== Sys2Proof/Machine/Command.lean ====
section
/-! DEFINITION. The commands that touch no context: `NOP` and the reserved code. -/

namespace Sys2Proof.Machine

/-- `NOP` (R72): no effect in any state, also with `FAULT` = 1. -/
def execNop (s : State) : Host.Outcome State Fault Refusal := .next s

/-- The reserved code 11 (R71, R75 (a), R181): `Fault(BAD_COMMAND)`; no effect while `FAULT` = 1 (R183, R185). -/
def execReservedCmd3 (s : State) : Host.Outcome State Fault Refusal :=
  .next (unlessFaulted (faultEntry .badCommand) s)

end Sys2Proof.Machine
end

