-- ==== Sys2Proof/Machine/HeaderEncoder.lean ====
section
/-! DEFINITION. The Header Encoder: `CONFIGURE` (R100 to R118). The bytes written so far are a list; its length is the write
offset `off`. -/

namespace Sys2Proof.Machine

/-- The prefix (R103): 16 preamble bytes, `ZCZC`, and one dash more where `START_CODE_DASH` is true (R116). -/
def prefixBytes (dash : Bool) : List Byte :=
  List.replicate Config.preambleLen Config.preambleByte ++ [0x5A, 0x43, 0x5A, 0x43] ++ (if dash then [0x2D] else [])

/-- `append(off, field, w)` (R104): the field's `w` bytes verbatim, then one dash. -/
def appendField {w : Nat} (buf : List Byte) (field : Vector Byte w) : List Byte := buf ++ field.toList ++ [0x2D]

/-- The plus overwrite (R107): the byte at `off - 1` becomes `+`. -/
def plusOverwrite (buf : List Byte) : List Byte := buf.set (buf.length - 1) 0x2B

/-- The encoded header of the first `n` location codes (R103 to R108). -/
def encodeHeader (dash : Bool) (h : AlertHeader) (n : Nat) : List Byte :=
  let buf := appendField (appendField (prefixBytes dash) h.org) h.evt
  let buf := plusOverwrite ((h.loc.toList.take n).foldl appendField buf)
  appendField (appendField (appendField buf h.vtp) h.otime) h.call

/-- The budget of a live stage (R110), by the synthesizer that owns it: 8 × 85 samples a byte for a burst, the attention
duration, or one second of silence. -/
def budget (encLen secs : Nat) (k : Fin 14) : Nat :=
  match schedule[k].toNat with
  | 0 => 8 * Config.samplesPerBit * encLen
  | 1 => 8 * Config.samplesPerBit * Config.eomLen
  | 2 => secs * Config.sampleRate
  | _ => Config.silenceSeconds * Config.sampleRate

/-- `TOTAL`, the sum of the 14 budgets (R110). The hardware has no register for it: a host computes it (R112, R205). -/
def totalSamples (encLen secs : Nat) : Nat := ((List.finRange 14).map (budget encLen secs)).sum

/-- `NCALLS` (R172), computed by a host. -/
def commandCount (total : Nat) : Nat := (total + Config.chunkCap - 1) / Config.chunkCap

/-- The context a `CONFIGURE` that does not fault leaves (R102 to R111): everything cleared, then the encoded bytes, their
length and the budgets. -/
def configuredContext (dash : Bool) (h : AlertHeader) (n : Nat) : Context :=
  let bytes := encodeHeader dash h n
  { clearedContext with
    encBytes := encBuffer bytes
    encLen := BitVec.ofNat 9 bytes.length
    remaining := Vector.ofFn fun k => BitVec.ofNat 32 (budget bytes.length h.attnSeconds.toNat k) }

/-- `CONFIGURE` past the `FAULT` check (R100): the two faults in the order of R185, then the whole effect. -/
def configure (s : State) : State :=
  let n := countLocations Config.locEndMarker s.header.loc
  if n = 0 then faultEntry .noLocation s
  else if s.header.attnSeconds = 0 then faultEntry .zeroAttn s
  else markConfigured { s with ctx := configuredContext Config.startCodeDash s.header n }

/-- `CONFIGURE` (R100, R101). -/
def execConfigure (s : State) : Host.Outcome State Fault Refusal := .next (unlessFaulted configure s)

end Sys2Proof.Machine
end

