-- ==== Sys2Proof/Machine/Afsk.lean ====
section
/-! DEFINITION. The AFSK synthesizer: `EMIT_AFSK_HDR` and `EMIT_AFSK_EOM` (R120 to R136). -/

namespace Sys2Proof.Machine

/-- The sub-state's advance (R126, R127), on mathematical integers (R12): sample, then bit, then byte; at the end of the data
buffer all three are 0. -/
def advanceAfsk (len : Nat) (c : Context) : Context :=
  if c.sampleNum.toNat + 1 < Config.samplesPerBit then { c with sampleNum := BitVec.ofNat 7 (c.sampleNum.toNat + 1) }
  else if c.bitPos.toNat + 1 < 8 then { c with sampleNum := 0, bitPos := BitVec.ofNat 3 (c.bitPos.toNat + 1) }
  else if c.dataPos.toNat + 1 < len then
    { c with sampleNum := 0, bitPos := 0, dataPos := BitVec.ofNat 9 (c.dataPos.toNat + 1) }
  else { c with sampleNum := 0, bitPos := 0, dataPos := 0 }

/-- `EMIT_AFSK(data, len)` (R120): the sample of the current bit, and the advanced sub-state. The slot index is no operand
(R135). -/
def emitAfsk {n : Nat} (data : Vector Byte n) (len : Nat) (c : Context) : Except Fault (Sample × Context) :=
  match data[c.dataPos.toNat]? with
  | none => .error .dataIndexOutOfRange
  | some byte =>
    match afskSample sin32 (dataBit byte c.bitPos) c.sampleNum.toNat with
    | none => .error .sampleOutOfRange
    | some v => .ok (v, advanceAfsk len c)

/-- `EMIT_AFSK_HDR` on the context (R120): the header buffer. -/
def emitAfskHdr (c : Context) : Except Fault (Sample × Context) := emitAfsk c.encBytes c.encLen.toNat c

/-- `EMIT_AFSK_EOM` on the context (R133): the EOM buffer. -/
def emitAfskEom (c : Context) : Except Fault (Sample × Context) := emitAfsk eomBytes Config.eomLen c

/-- `EMIT_AFSK_HDR` (R120). -/
def execEmitAfskHdr (s : State) : Host.Outcome State Fault Refusal := deliver s (emitAfskHdr s.ctx)

/-- `EMIT_AFSK_EOM` (R133). -/
def execEmitAfskEom (s : State) : Host.Outcome State Fault Refusal := deliver s (emitAfskEom s.ctx)

end Sys2Proof.Machine
end

