-- ==== Sys2Proof/Machine/Attention.lean ====
section
/-! DEFINITION. The Attention Synthesizer: `EMIT_ATTN` (R140 to R149). -/

namespace Sys2Proof.Machine

/-- `EMIT_ATTN` on the context (R140 to R142): the sample at the counter's value, then the counter up by one. -/
def emitAttn (free : BitVec 32) (c : Context) : Except Fault (Sample × Context) :=
  match attnSample sin32 c.attnSampleNum.toNat with
  | none => .error .sampleOutOfRange
  | some v => .ok (v, { c with attnSampleNum := countUp free c.attnSampleNum })

/-- The free values an `EMIT_ATTN` draws: one where its counter stands at its last value (log entry 19). -/
def attnDraws (c : Context) : Nat := if c.attnSampleNum.toNat + 1 < 2 ^ 32 then 0 else 1

/-- `EMIT_ATTN` (R140). -/
def execEmitAttn (s : State) : Host.Outcome State Fault Refusal :=
  deliver { s with draws := s.draws + attnDraws s.ctx } (emitAttn (Config.freeAttnSampleNum s.draws) s.ctx)

end Sys2Proof.Machine
end

