-- ==== Sys2Proof/Machine/Silence.lean ====
section
/-! DEFINITION. The Silence Synthesizer: `EMIT_SILENCE` (R150 to R152). -/

namespace Sys2Proof.Machine

/-- `EMIT_SILENCE` on the context (R150): the sample 0, and nothing written. -/
def emitSilence (c : Context) : Except Fault (Sample × Context) := .ok (0, c)

/-- `EMIT_SILENCE` (R150). -/
def execEmitSilence (s : State) : Host.Outcome State Fault Refusal := deliver s (emitSilence s.ctx)

end Sys2Proof.Machine
end

