-- ==== Sys2Proof/Machine/Sequencer.lean ====
section
/-! DEFINITION. The Sequencer: the slot step and `GENERATE_CHUNK` (R160 to R175). -/

namespace Sys2Proof.Machine

/-- The dispatch of a slot step (R163): the micro-operation a `SCHEDULE` code names (R74). -/
def runSynth (free : BitVec 32) (w : Code) (c : Context) : Except Fault (Sample × Context) :=
  match w.toNat with
  | 0 => emitAfskHdr c
  | 1 => emitAfskEom c
  | 2 => emitAttn free c
  | _ => emitSilence c

/-- One slot step at slot `i` in live stage `k` (R162 to R165): dispatch, store, decrement, test and advance. A free value it
needs is draw number `draw`. -/
def slotStep (draw i : Nat) (k : Fin 14) (c : Context) : Except Fault Context :=
  match runSynth (Config.freeAttnSampleNum draw) schedule[k] c with
  | .error f => .error f
  | .ok (v, c') => .ok (advanceStage k (decrementRemaining (Config.freeRemaining draw) k (storeSample i v c')))

/-- The draws a slot step takes: one where the stage's counter stands at 0, or where its `EMIT_ATTN` draws (log entry 19). -/
def slotDraws (k : Fin 14) (c : Context) : Nat :=
  if c.remaining[k] = 0 then 1 else if schedule[k] = 2 then attnDraws c else 0

/-- Where the slot loop stands: the context, the next slot and the next draw number. -/
structure SlotLoop where
  ctx : Context
  slot : Nat
  draws : Nat

/-- The slot loop (R162, R166): at most `fuel` slot steps, ending early where `STAGE` is `DONE`. -/
def runSlots : Nat → SlotLoop → Except Fault SlotLoop
  | 0, l => .ok l
  | fuel + 1, l =>
    match l.ctx.stage.live with
    | none => .ok l
    | some k =>
      match slotStep l.draws l.slot k l.ctx with
      | .error f => .error f
      | .ok c => runSlots fuel ⟨c, l.slot + 1, l.draws + slotDraws k l.ctx⟩

/-- The slot loop of a whole command and `COUNT` (R162, R167). -/
def fillChunk (s : State) : Host.Outcome State Fault Refusal :=
  match runSlots Config.chunkCap ⟨s.ctx, 0, s.draws⟩ with
  | .error f => .fault f
  | .ok l => .next { s with ctx := l.ctx, count := BitVec.ofNat 13 l.slot, draws := l.draws }

/-- `GENERATE_CHUNK` (R160): the preconditions in the order of R161 and R185, then the slot loop. -/
def execGenerateChunk (s : State) : Host.Outcome State Fault Refusal :=
  if s.fault then .next s
  else if s.configured = false then .next (faultEntry .noContext s)
  else if s.ctx.stage = .done then .next (faultEntry .terminalStage s)
  else fillChunk s

end Sys2Proof.Machine
end

