-- ==== Sys2Proof/Machine/Dispatch.lean ====
section
/-! DEFINITION. One arm per constructor of Instr. -/

namespace Sys2Proof.Machine

/-- The meaning of every instruction of the opcode table. -/
def exec (i : Instr) (s : State) : Host.Outcome State Fault Refusal :=
  match i with
  | .nop => Sys2Proof.Machine.execNop s
  | .configure => Sys2Proof.Machine.execConfigure s
  | .generateChunk => Sys2Proof.Machine.execGenerateChunk s
  | .reservedCmd3 => Sys2Proof.Machine.execReservedCmd3 s
  | .emitAfskHdr => Sys2Proof.Machine.execEmitAfskHdr s
  | .emitAfskEom => Sys2Proof.Machine.execEmitAfskEom s
  | .emitAttn => Sys2Proof.Machine.execEmitAttn s
  | .emitSilence => Sys2Proof.Machine.execEmitSilence s

end Sys2Proof.Machine
end

