-- ==== Sys2Proof/Machine/HostPort.lean ====
section
/-! DEFINITION. The host's side (R16, R59, R82, R83): its actions, what it reads, and the two pseudo-operations. -/

namespace Sys2Proof.Machine

/-- One host action (R82). A command is decoded and executed whole (R16, R32); `RESET` and a register write act at rest; a read
changes nothing (R55). -/
def hostAction (a : HostAction) (s : State) : Host.Outcome State Fault Refusal :=
  match a with
  | .reset => .next (resetEvent s)
  | .write r v => .next { s with header := writeAh s.header r v }
  | .read _ => .next s
  | .cmd w => exec (decodeCmdw w) s

/-- The core between two commands (R16, R193, R201): it takes the host's next action, or holds its state (log entry 18). -/
def hostStep (s : State) : Host.Outcome State Fault Refusal :=
  match s.inbox with
  | [] => .next s
  | a :: rest => hostAction a { s with inbox := rest }

/-- A micro-operation standing alone on the path to a synthesizer (log entry 4). -/
def synthStep (w : Code) (s : State) : Host.Outcome State Fault Refusal :=
  exec (decodeSchedule w) { s with synth := .idle }

/-- The value a host read gives (R20, D3). A sample reads as its bit pattern. -/
def hostRead (s : State) : HostReg → Nat
  | .ah r => (readAh s.header r).toNat
  | .chunk i => s.ctx.chunk[i].toNat
  | .count => s.count.toNat
  | .stage => s.ctx.stage.code.toNat
  | .configured => s.configured.toNat
  | .fault => s.fault.toNat
  | .faultCause => s.faultCause.code.toNat

/-- The writes of one location entry. -/
def writeLoc (k : Fin 31) (code : Vector Byte 6) : List HostAction :=
  (List.finRange 6).map fun i => .write (.loc k i) code[i]

/-- The writes of `AH_LOC` in `LOAD_HEADER` (R83): the codes, then the marker after the last one where fewer than 31 are given. -/
def writeLocs (locs : List (Vector Byte 6)) : List HostAction :=
  ((List.finRange 31).zip locs).flatMap (fun p => writeLoc p.1 p.2) ++
    (if h : locs.length < 31 then writeLoc ⟨locs.length, h⟩ Config.locEndMarker else [])

/-- The pseudo-operation `LOAD_HEADER` (R83). -/
def loadHeader (org evt : Vector Byte 3) (locs : List (Vector Byte 6)) (vtp : Vector Byte 4) (otime : Vector Byte 7)
    (call : Vector Byte 8) (secs : BitVec 8) : List HostAction :=
  (List.finRange 3).map (fun i => .write (.org i) org[i]) ++
  (List.finRange 3).map (fun i => .write (.evt i) evt[i]) ++
  writeLocs locs ++
  (List.finRange 4).map (fun i => .write (.vtp i) vtp[i]) ++
  (List.finRange 7).map (fun i => .write (.otime i) otime[i]) ++
  (List.finRange 8).map (fun i => .write (.call i) call[i]) ++
  [.write .attnSeconds secs]

/-- What a host consumes after a `GENERATE_CHUNK` (R203, R204): `CHUNK[0..COUNT)`. -/
def consumeChunk (s : State) : List Sample := s.ctx.chunk.toList.take s.count.toNat

/-- The loop of the pseudo-operation `RUN_ALERT` (R83, R203): `GENERATE_CHUNK`, consume, until `STAGE` reads 14, at most `fuel`
times. The answer holds the samples consumed. -/
def drainAlert : Nat → State → Host.Outcome (State × List Sample) Fault Refusal
  | 0, s => .next (s, [])
  | fuel + 1, s =>
    match exec .generateChunk s with
    | .fault f => .fault f
    | .refused r => .refused r
    | .next t =>
      if t.ctx.stage = .done then .next (t, consumeChunk t)
      else
        match drainAlert fuel t with
        | .fault f => .fault f
        | .refused r => .refused r
        | .next (u, out) => .next (u, consumeChunk t ++ out)

/-- The pseudo-operation `RUN_ALERT` (R83): `CONFIGURE`, then the loop. -/
def runAlert (fuel : Nat) (s : State) : Host.Outcome (State × List Sample) Fault Refusal :=
  match exec .configure s with
  | .fault f => .fault f
  | .refused r => .refused r
  | .next t => drainAlert fuel t

end Sys2Proof.Machine
end

