-- ==== Sys2Proof/Machine/Step.lean ====
section
/-! DEFINITION. One step of the machine, and how the host's instruction word is placed for the next step. -/

namespace Sys2Proof.Machine

/-- One step: a micro-operation handed to a synthesizer runs; otherwise the core takes the host's next action, one command an
atomic step (R16). The core hands a micro-operation out only inside a `GENERATE_CHUNK`, so between steps of a run the path is
never `dispatched`; such a state comes from `withFetchWord` alone (log entry 4). -/
def step (s : State) : Host.Outcome State Fault Refusal :=
  match s.synth with
  | .dispatched w => synthStep w s
  | _ => hostStep s

/-- A path that hands nothing out, a returned sample kept. -/
def SynthPort.undispatched : SynthPort → SynthPort
  | .dispatched _ => .idle
  | p => p

/-- The state whose next step runs the instruction an opcode-table word decodes to (log entries 5, 6): a command stands first
among the host's actions, a micro-operation on the path to a synthesizer. A word that decodes to nothing fits no 2-bit port and
is not placed. -/
def State.withFetchWord (s : State) (nbits w : Nat) : State :=
  match decodeTableWord nbits w, tableFormat nbits with
  | none, _ => s
  | some _, .cmdw =>
    { s with inbox := .cmd (BitVec.ofNat 2 w) :: s.inbox, synth := s.synth.undispatched }
  | some _, .schedule => { s with synth := .dispatched (BitVec.ofNat 2 w) }

end Sys2Proof.Machine
end

