-- ==== Sys2Proof/Safety.lean ====
section
/-! DEFINITION. What claims are stated in: the invariant of the machine, a complete alert, and the sample stream of an alert as
a function of its configuration alone (R171). -/

namespace Sys2Proof.Machine

/-- `ENC_LEN` of a header with `n` location codes (R109, R116). -/
def headerLen (n : Nat) : Nat := 50 + 7 * n + Config.startCodeDash.toNat

/-- The slot steps a stage takes, by stage code: its budget (R110); one place for `DONE`, where the alert rests. -/
def stageLen (encLen secs k : Nat) : Nat := if h : k < 14 then budget encLen secs ⟨k, h⟩ else 1

/-- The stages whose samples the AFSK synthesizer makes (R74), by stage code. -/
def isAfskStage (k : Nat) : Bool := [0, 2, 4, 8, 10, 12].contains k

/-- The slot steps of the current burst done so far: `j` in an AFSK stage, none elsewhere (R128). -/
def burstPos (k j : Nat) : Nat := if isAfskStage k then j else 0

/-- `ATTN_SAMPLE_NUM` at slot `j` of stage `k` (R142): 0 before stage 6, counting in it, `secs` seconds of samples after it. -/
def attnPos (secs k j : Nat) : Nat := if k < 6 then 0 else if k = 6 then j else secs * Config.sampleRate

/-- `REMAINING[i]` at slot `j` of stage `k` (R28). -/
def leftAt (encLen secs k j : Nat) (i : Fin 14) : Nat :=
  if i.val < k then 0 else if i.val = k then budget encLen secs i - j else budget encLen secs i

/-- The context stands before slot step `j` of stage `k` in an alert of `n` location codes and `secs` seconds (R28, R29, R30,
R126, R128, R142, R174). Stage 14 is `DONE`. -/
structure AlertAt (n secs k j : Nat) (c : Context) : Prop where
  codes : 1 ≤ n ∧ n ≤ 31
  seconds : 1 ≤ secs ∧ secs ≤ 255
  encLen : c.encLen.toNat = headerLen n
  stage : c.stage.index = k
  offset : j < stageLen (headerLen n) secs k
  remaining : ∀ i : Fin 14, c.remaining[i].toNat = leftAt (headerLen n) secs k j i
  dataPos : c.dataPos.toNat = burstPos k j / 680
  bitPos : c.bitPos.toNat = burstPos k j % 680 / 85
  sampleNum : c.sampleNum.toNat = burstPos k j % 85
  attn : c.attnSampleNum.toNat = attnPos secs k j

/-- The header buffer of a configured context (R24, R39, R103): it begins with the prefix and is 0 from `ENC_LEN` on. -/
structure EncWf (c : Context) : Prop where
  start : c.encBytes.toList.take (prefixBytes Config.startCodeDash).length = prefixBytes Config.startCodeDash
  rest : ∀ i : Fin 268, c.encLen.toNat ≤ i.val → c.encBytes[i] = 0

/-- The generation context of a configured core that has not faulted: it stands somewhere in an alert, its registers agreeing
with the place. -/
def Context.Inv (c : Context) : Prop := EncWf c ∧ ∃ n secs k j, AlertAt n secs k j c

/-- The invariant of the machine. After `RESET` and after a fault the context is unspecified, so nothing is said of it there
(R39, R186). -/
structure State.Inv (s : State) : Prop where
  /-- `FAULT_CAUSE` holds a cause exactly while `FAULT` = 1 (R34, R181). -/
  flags : s.fault = true ↔ s.faultCause ≠ .none
  /-- No micro-operation is in flight between two steps (R16; log entry 4). -/
  path : ∀ w, s.synth ≠ .dispatched w
  /-- `COUNT` is at most the capacity of `CHUNK` (R35). -/
  count : s.configured = true → s.fault = false → s.count.toNat ≤ 4096
  /-- The context stands somewhere in an alert. -/
  context : s.configured = true → s.fault = false → s.ctx.Inv

/-- A complete alert (R174): `STAGE` = 14 and `FAULT` = 0. -/
def State.complete (s : State) : Prop := s.ctx.stage = .done ∧ s.fault = false

/-- The core is between two steps of a run: no micro-operation stands on the path to a synthesizer. -/
def State.atRest (s : State) : Prop := ∀ w, s.synth ≠ .dispatched w

/-- `N`, the number of location codes present (R23). -/
def State.locations (s : State) : Nat := countLocations Config.locEndMarker s.header.loc

/-- A `CONFIGURE` does not fault (R100, R101, R114, R115): the core is not faulted, a location code is present and the attention
duration is not 0. -/
structure State.configurable (s : State) : Prop where
  notFaulted : s.fault = false
  located : s.locations ≠ 0
  timed : s.header.attnSeconds ≠ 0

/-- A `GENERATE_CHUNK` passes its preconditions (R161). -/
structure State.generating (s : State) : Prop where
  notFaulted : s.fault = false
  hasContext : s.configured = true
  notDone : s.ctx.stage ≠ .done

/-- `t` is `s` after `raise Fault(cause)` (R182, R186): the two fault registers are written; the input record, `CONFIGURED` and
what the host does next are as before. Of the context, `CHUNK` and `COUNT` nothing is said. -/
structure FaultEntered (cause : Cause) (s t : State) : Prop where
  fault : t.fault = true
  faultCause : t.faultCause = cause
  header : t.header = s.header
  configured : t.configured = s.configured
  synth : t.synth = s.synth
  inbox : t.inbox = s.inbox

/-- `d` is `c` after the AFSK sub-state's advance over a buffer of `len` bytes (R126, R127); every other register is as before. -/
structure AfskAdvanced (len : Nat) (c d : Context) : Prop where
  sampleNum : d.sampleNum.toNat = if c.sampleNum.toNat + 1 < 85 then c.sampleNum.toNat + 1 else 0
  bitPos : d.bitPos.toNat =
    if c.sampleNum.toNat + 1 < 85 then c.bitPos.toNat
    else if c.bitPos.toNat + 1 < 8 then c.bitPos.toNat + 1 else 0
  dataPos : d.dataPos.toNat =
    if c.sampleNum.toNat + 1 < 85 ∨ c.bitPos.toNat + 1 < 8 then c.dataPos.toNat
    else if c.dataPos.toNat + 1 < len then c.dataPos.toNat + 1 else 0
  same : d = { c with dataPos := d.dataPos, bitPos := d.bitPos, sampleNum := d.sampleNum }

/-- `r` is `fl32` of the exact value `num / den` in units of 2^-149 (R13, D23): it is finite exactly where the magnitude lies below
the half-way point past the largest finite value; then no finite value lies nearer, and where another lies as near `r` is even. -/
structure Nearest32 (num : Int) (den : Nat) (r : F32) : Prop where
  finite : f32Finite r = true ↔ num.natAbs < (2 ^ 25 - 1) * 2 ^ 252 * den
  nearest : f32Finite r = true → ∀ p : F32, f32Finite p = true →
    (f32Int r * den - num).natAbs ≤ (f32Int p * den - num).natAbs
  tieEven : f32Finite r = true → ∀ p : F32, f32Finite p = true →
    (f32Int r * den - num).natAbs = (f32Int p * den - num).natAbs → f32Int p ≠ f32Int r → r.toNat % 2 = 0

/-- The samples an alert still has to emit: the sum of `REMAINING`. -/
def remainingSum (c : Context) : Nat := (c.remaining.toList.map BitVec.toNat).sum

/-- Sample `j` of a burst over `data` (R171): the bit is number `j mod 680 div 85` of byte `j div 680`. -/
def burstSample {n : Nat} (data : Vector Byte n) (j : Nat) : Option Sample :=
  (data[j / 680]?).bind fun b => afskSample sin32 (b.getLsbD (j % 680 / 85)) (j % 85)

/-- Sample `j` of stage `k` (R171). -/
def stageSample (encBytes : Vector Byte 268) (k : Fin 14) (j : Nat) : Option Sample :=
  match schedule[k].toNat with
  | 0 => burstSample encBytes j
  | 1 => burstSample eomBytes j
  | 2 => attnSample sin32 j
  | _ => some 0

/-- The samples of a list of stages, each with its length, as one stream (R170, R171). -/
def streamSample (encBytes : Vector Byte 268) : List (Fin 14 × Nat) → Nat → Option Sample
  | [], _ => none
  | (k, len) :: rest, m => if m < len then stageSample encBytes k m else streamSample encBytes rest (m - len)

/-- Sample `m` of an alert (R171): a function of the encoded header, its length and the attention duration. -/
def alertSample (encBytes : Vector Byte 268) (encLen secs m : Nat) : Option Sample :=
  streamSample encBytes ((List.finRange 14).map fun k => (k, budget encLen secs k)) m

end Sys2Proof.Machine
end

