-- ==== Sys2Proof/Certificates/Slice0/Obligations.lean ====
section
/-! DEFINITION. The statements for the provers. Each docstring names the rule it formalises; where a clause rests on a choice of
the model or of the spec's own decisions, it says so. -/

open Sys2Proof Sys2Proof.Machine

/-! ### Decoding and the step -/

/-- The words written out from R71 and R74 decode to the instruction they stand for. The codes are the spec's decisions D4, D5. -/
def Obligations.WordsDecodeToTheirInstruction : Prop :=
  decode .cmdw [0b00000000] = .ok .nop ∧ decode .cmdw [0b00000001] = .ok .configure ∧
  decode .cmdw [0b00000010] = .ok .generateChunk ∧ decode .cmdw [0b00000011] = .ok .reservedCmd3 ∧
  decode .schedule [0b00000000] = .ok .emitAfskHdr ∧ decode .schedule [0b00000001] = .ok .emitAfskEom ∧
  decode .schedule [0b00000010] = .ok .emitAttn ∧ decode .schedule [0b00000011] = .ok .emitSilence

/-- Decoding and encoding agree both ways, and a byte string decodes exactly where it is one byte with zeros above bit 1. -/
def Obligations.DecodeAndEncodeAgree : Prop :=
  (∀ i : Instr, decode i.format (encodeBytes i) = .ok i) ∧
  (∀ (f : Format) (w : Code), (decodeWord f w).format = f ∧ encode (decodeWord f w) = w) ∧
  (∀ (f : Format) (bytes : List Byte), (∃ i, decode f bytes = .ok i) ↔ ∃ b : Byte, bytes = [b] ∧ b.toNat < 4)

/-- A step takes the host's next action: a command runs the decoded instruction as one atomic step, a write, a read and `RESET`
have their effect, and with no action the core holds its state (R16, R32, R55, R193, R200). The queue of host actions is the
model's own, log entry 6. -/
def Obligations.StepTakesTheHostsNextAction : Prop :=
  ∀ s : State, s.atRest →
    (s.inbox = [] → step s = .next s) ∧
    ∀ rest : List HostAction,
      (∀ w, s.inbox = .cmd w :: rest → step s = exec (decodeCmdw w) { s with inbox := rest }) ∧
      (∀ r v, s.inbox = .write r v :: rest → step s = .next { s with header := writeAh s.header r v, inbox := rest }) ∧
      (∀ r, s.inbox = .read r :: rest → step s = .next { s with inbox := rest }) ∧
      (s.inbox = .reset :: rest → step s = .next (resetEvent { s with inbox := rest }))

/-- A micro-operation handed to a synthesizer runs as the next step. The path to the synthesizers is the model's own, log
entry 4. -/
def Obligations.StepRunsTheHandedMicroOperation : Prop :=
  ∀ (s : State) (w : Code), s.synth = .dispatched w → step s = exec (decodeSchedule w) { s with synth := .idle }

/-- A placed instruction word is what the next step runs: `withFetchWord` then `step` is `exec` of the decoded instruction, at a
state that differs from the given one in the path to the synthesizers alone. The model's own, log entry 5. -/
def Obligations.PlacedWordRunsNext : Prop :=
  ∀ (s : State) (nbits w : Nat) (i : Instr), decodeTableWord nbits w = some i →
    ∃ p : SynthPort, (∀ v, p ≠ .dispatched v) ∧ step (s.withFetchWord nbits w) = exec i { s with synth := p }

/-! ### Commands that touch no context, and faults -/

/-- R72 (decision D5): `NOP` changes no state and raises no fault. -/
def Obligations.NopChangesNothing : Prop := ∀ s : State, exec .nop s = .next s

/-- R71, R75 (a), R181 (decisions D5, D10): the reserved code raises `Fault(BAD_COMMAND)` in any state that is not faulted. -/
def Obligations.ReservedCodeRaisesBadCommand : Prop :=
  ∀ s : State, s.fault = false → ∃ t, exec .reservedCmd3 s = .next t ∧ FaultEntered .badCommand s t

/-- R183 (decision D10): while `FAULT` = 1 every command does nothing. -/
def Obligations.FaultedCoreIgnoresEveryCommand : Prop :=
  ∀ (i : Instr) (s : State), i.format = .cmdw → s.fault = true → exec i s = .next s

/-- R183: only `RESET` leaves the fault state. -/
def Obligations.OnlyResetLeavesTheFaultState : Prop :=
  ∀ s t : State, step s = .next t → s.fault = true → t.fault = false → s.atRest ∧ ∃ rest, s.inbox = .reset :: rest

/-- R161 (b) and R185: without a context `GENERATE_CHUNK` raises `Fault(NO_CONTEXT)`, whatever `STAGE` holds. -/
def Obligations.GenerateWithoutContextFaults : Prop :=
  ∀ s : State, s.fault = false → s.configured = false →
    ∃ t, exec .generateChunk s = .next t ∧ FaultEntered .noContext s t

/-- R161 (c): at the terminal stage `GENERATE_CHUNK` raises `Fault(TERMINAL_STAGE)`. -/
def Obligations.GenerateAtTerminalStageFaults : Prop :=
  ∀ s : State, s.fault = false → s.configured = true → s.ctx.stage = .done →
    ∃ t, exec .generateChunk s = .next t ∧ FaultEntered .terminalStage s t

/-- R114, R115, R185 (decisions D15, D16, D20): `CONFIGURE` faults on an empty location list whatever the duration, and on
duration 0 with a code present. -/
def Obligations.ConfigureFaultsInOrder : Prop :=
  ∀ s : State, s.fault = false →
    (s.locations = 0 → ∃ t, exec .configure s = .next t ∧ FaultEntered .noLocation s t) ∧
    (s.locations ≠ 0 → s.header.attnSeconds = 0 → ∃ t, exec .configure s = .next t ∧ FaultEntered .zeroAttn s t)

/-- R33, R34, R181: `CONFIGURED` is changed by `CONFIGURE` alone, to 1; `FAULT` is changed by a command alone, to 1 and with a
cause; `FAULT_CAUSE` is changed by the first fault alone. -/
def Obligations.StatusFlagsChangeOnlyAsSaid : Prop :=
  ∀ (i : Instr) (s t : State), exec i s = .next t →
    (t.configured ≠ s.configured → i = .configure ∧ t.configured = true) ∧
    (t.fault ≠ s.fault →
      t.fault = true ∧ t.faultCause ≠ .none ∧ (i = .configure ∨ i = .generateChunk ∨ i = .reservedCmd3)) ∧
    (t.faultCause ≠ s.faultCause → s.fault = false ∧ t.fault = true)

/-- R117, R21: no instruction writes the input record, and none touches what the host does next. -/
def Obligations.NoInstructionWritesTheInputRecord : Prop :=
  ∀ (i : Instr) (s t : State), exec i s = .next t → t.header = s.header ∧ t.inbox = s.inbox

/-! ### CONFIGURE -/

/-- R102, R109 to R112: what a `CONFIGURE` that does not fault leaves in every register but `ENC_BYTES`, and what it leaves
unchanged. The cleared value zero is decision D14; `START_CODE_DASH` is false. -/
def Obligations.ConfigureBuildsTheContext : Prop :=
  ∀ s : State, s.configurable → ∃ t, exec .configure s = .next t ∧
    t.ctx.encLen.toNat = 50 + 7 * s.locations ∧
    (∀ k : Fin 14, t.ctx.remaining[k].toNat =
      if k.val = 0 ∨ k.val = 2 ∨ k.val = 4 then 680 * (50 + 7 * s.locations)
      else if k.val = 8 ∨ k.val = 10 ∨ k.val = 12 then 13600
      else if k.val = 6 then s.header.attnSeconds.toNat * 44100
      else 44100) ∧
    t.ctx.stage = .hdr1 ∧ t.ctx.dataPos = 0 ∧ t.ctx.bitPos = 0 ∧ t.ctx.sampleNum = 0 ∧ t.ctx.attnSampleNum = 0 ∧
    (∀ i : Fin 4096, t.ctx.chunk[i] = 0) ∧
    t = { s with ctx := t.ctx, count := 0, configured := true }

/-- R103, R105, R107, R108, with `START_CODE_DASH` = false (the layout of R76): the bytes of `ENC_BYTES`, offset by offset, and
zero past `ENC_LEN` (decision D14). -/
def Obligations.EncodedHeaderLayout : Prop :=
  ∀ s : State, s.configurable → ∃ t, exec .configure s = .next t ∧
    let n := s.locations
    let byte := fun i : Nat => t.ctx.encBytes[i]?
    t.ctx.encLen.toNat = 50 + 7 * n ∧
    (∀ i < 16, byte i = some 0xAB) ∧
    byte 16 = some 0x5A ∧ byte 17 = some 0x43 ∧ byte 18 = some 0x5A ∧ byte 19 = some 0x43 ∧
    (∀ i : Fin 3, byte (20 + i) = some s.header.org[i]) ∧ byte 23 = some 0x2D ∧
    (∀ i : Fin 3, byte (24 + i) = some s.header.evt[i]) ∧ byte 27 = some 0x2D ∧
    (∀ k : Fin 31, k.val < n →
      (∀ i : Fin 6, byte (28 + 7 * k + i) = some s.header.loc[k][i]) ∧
      byte (34 + 7 * k) = some (if k.val + 1 = n then 0x2B else 0x2D)) ∧
    (∀ i : Fin 4, byte (28 + 7 * n + i) = some s.header.vtp[i]) ∧ byte (32 + 7 * n) = some 0x2D ∧
    (∀ i : Fin 7, byte (33 + 7 * n + i) = some s.header.otime[i]) ∧ byte (40 + 7 * n) = some 0x2D ∧
    (∀ i : Fin 8, byte (41 + 7 * n + i) = some s.header.call[i]) ∧ byte (49 + 7 * n) = some 0x2D ∧
    (∀ i, 50 + 7 * n ≤ i → i < 268 → byte i = some 0)

/-- R103: after every `CONFIGURE` that does not fault, `ENC_BYTES` begins with 16 bytes `0xAB` and `ZCZC`, independent of field
contents, and the offset after the prefix is 20. -/
def Obligations.EncodedHeaderBeginsWithThePrefix : Prop :=
  (prefixBytes Config.startCodeDash).length = 20 ∧
  ∀ s : State, s.configurable → ∃ t, exec .configure s = .next t ∧
    t.ctx.encBytes.toList.take 20 =
      [0xAB, 0xAB, 0xAB, 0xAB, 0xAB, 0xAB, 0xAB, 0xAB, 0xAB, 0xAB, 0xAB, 0xAB, 0xAB, 0xAB, 0xAB, 0xAB, 0x5A, 0x43, 0x5A, 0x43]

/-- R116 (decision D17): with `START_CODE_DASH` = true the layout is the other one with a dash put in at offset 20, for every
number of location codes a header can have. -/
def Obligations.StartCodeDashInsertsOneByte : Prop :=
  ∀ (h : AlertHeader) (n : Nat), 1 ≤ n → n ≤ 31 → encodeHeader true h n = (encodeHeader false h n).insertIdx 20 0x2D

/-- R23, R106: the number of location codes is the index of the first entry equal to the marker, or 31. -/
def Obligations.LocationsEndAtTheFirstMarker : Prop :=
  ∀ (marker : Vector Byte 6) (loc : Vector (Vector Byte 6) 31),
    countLocations marker loc ≤ 31 ∧
    (∀ k : Fin 31, k.val < countLocations marker loc → loc[k] ≠ marker) ∧
    (∀ k : Fin 31, k.val = countLocations marker loc → loc[k] = marker)

/-- R106: no entry after the first marker entry is read: two cores whose input records agree up to it and in every other field
are configured alike. -/
def Obligations.EntriesAfterTheMarkerAreIgnored : Prop :=
  ∀ s s' : State, s.configurable → s'.fault = false →
    s'.header = { s.header with loc := s'.header.loc } →
    (∀ k : Fin 31, k.val ≤ s.locations → s'.header.loc[k] = s.header.loc[k]) →
    ∃ t t', exec .configure s = .next t ∧ exec .configure s' = .next t' ∧ t'.ctx = t.ctx ∧ t'.configured = true

/-- R118, R102: nothing of an earlier alert survives: two cores with the same input record are configured alike, whatever their
contexts held. -/
def Obligations.ConfigureForgetsTheEarlierAlert : Prop :=
  ∀ s s' : State, s.configurable → s'.fault = false → s'.header = s.header →
    ∃ t t', exec .configure s = .next t ∧ exec .configure s' = .next t' ∧
      t'.ctx = t.ctx ∧ t'.count = t.count ∧ t'.configured = t.configured

/-- R110: `TOTAL`, the sum of the 14 budgets. -/
def Obligations.TotalIsTheSumOfTheBudgets : Prop :=
  ∀ encLen secs : Nat, totalSamples encLen secs = 2040 * encLen + 349500 + 44100 * secs

/-! ### The synthesizers -/

/-- R120 to R127: `EMIT_AFSK_HDR` completes wherever its data byte exists, with the sample of the formula and the sub-state
advanced over `ENC_LEN` bytes; nothing else changes. The operation order is decision D18, the conversion D7. -/
def Obligations.EmitAfskHdrResult : Prop :=
  ∀ s : State, s.ctx.dataPos.toNat < 268 → ∃ b v d,
    s.ctx.encBytes[s.ctx.dataPos.toNat]? = some b ∧
    toS16 (f32Mul (sin32 (f32Mul (f32Mul 0x40C90FDB (f32Div (f32OfNat s.ctx.sampleNum.toNat) 0x472C4400))
      (if b.getLsbD s.ctx.bitPos.toNat then 0x450234CD else 0x44C35000))) 0x46FFFE00) = some v ∧
    AfskAdvanced s.ctx.encLen.toNat s.ctx d ∧
    exec .emitAfskHdr s = .next { s with ctx := d, synth := .emitted v }

/-- R133: `EMIT_AFSK_EOM` is the same over the 20 bytes of `EOM_BYTES`. -/
def Obligations.EmitAfskEomResult : Prop :=
  ∀ s : State, s.ctx.dataPos.toNat < 20 → ∃ b v d,
    eomBytes[s.ctx.dataPos.toNat]? = some b ∧
    toS16 (f32Mul (sin32 (f32Mul (f32Mul 0x40C90FDB (f32Div (f32OfNat s.ctx.sampleNum.toNat) 0x472C4400))
      (if b.getLsbD s.ctx.bitPos.toNat then 0x450234CD else 0x44C35000))) 0x46FFFE00) = some v ∧
    AfskAdvanced 20 s.ctx d ∧
    exec .emitAfskEom s = .next { s with ctx := d, synth := .emitted v }

/-- R140 to R142: `EMIT_ATTN` completes in every state, with the sample of the two-tone formula and the counter up by one; nothing
else changes. At the counter's last value what it holds next is a free value (log entry 19). The operation order is decisions D18,
D19. -/
def Obligations.EmitAttnResult : Prop :=
  ∀ s : State, ∃ v n draws,
    (let t := f32Div (f32OfNat s.ctx.attnSampleNum.toNat) 0x472C4400
     let s1 := sin32 (f32Mul (f32Mul 0x40C90FDB t) 0x44554000)
     let s2 := sin32 (f32Mul (f32Mul 0x40C90FDB t) 0x44700000)
     toS16 (f32Mul (f32Div (f32Add s1 s2) 0x40000000) 0x46FFFE00) = some v) ∧
    (s.ctx.attnSampleNum.toNat + 1 < 2 ^ 32 → n = s.ctx.attnSampleNum + 1 ∧ draws = s.draws) ∧
    exec .emitAttn s =
      .next { s with ctx := { s.ctx with attnSampleNum := n }, synth := .emitted v, draws := draws }

/-- R150: `EMIT_SILENCE` returns the sample 0 in every state and writes nothing; every slot step of a silence stage writes 0 to
its slot. The path the sample returns on is the model's own, log entry 4. -/
def Obligations.EmitSilenceReturnsZero : Prop :=
  (∀ s : State, exec .emitSilence s = .next { s with synth := .emitted 0 }) ∧
  (∀ (draw : Nat) (i : Fin 4096) (k : Fin 14) (c d : Context), schedule[k] = 3 → slotStep draw i k c = .ok d → d.chunk[i] = 0)

/-- R64 (the model's own stop, log entry 8): a data byte outside its memory stops the AFSK micro-operations; nothing else stops an
instruction, and none is refused. -/
def Obligations.DataIndexOutsideMemoryStops : Prop :=
  (∀ s : State,
    (268 ≤ s.ctx.dataPos.toNat → exec .emitAfskHdr s = .fault .dataIndexOutOfRange) ∧
    (20 ≤ s.ctx.dataPos.toNat → exec .emitAfskEom s = .fault .dataIndexOutOfRange)) ∧
  (∀ (i : Instr) (s : State) (f : Fault), exec i s = .fault f →
    f = .dataIndexOutOfRange ∧ (i = .emitAfskHdr ∨ i = .emitAfskEom ∨ i = .generateChunk)) ∧
  (∀ (i : Instr) (s : State) (r : Refusal), exec i s ≠ .refused r)

/-- N8, N11 (the model's own choice, log entry 19): past a counter's limit the instruction runs on, and the counter holds a free
value. `EMIT_ATTN` at the last value of its counter completes; a slot step of an attention or silence stage whose counter stands at
0 completes, and its stage advances exactly where the free value is 0. -/
def Obligations.CounterLimitsAreFreeValues : Prop :=
  (∀ s : State, s.ctx.attnSampleNum.toNat + 1 = 2 ^ 32 → ∃ t, exec .emitAttn s = .next t ∧
    t.ctx.attnSampleNum = Config.freeAttnSampleNum s.draws ∧ t.draws = s.draws + 1) ∧
  (∀ (draw : Nat) (i : Fin 4096) (k : Fin 14) (c : Context), schedule[k] = 2 ∨ schedule[k] = 3 → c.remaining[k] = 0 →
    ∃ d, slotStep draw i k c = .ok d ∧ d.remaining[k] = Config.freeRemaining draw ∧
      d.stage = (if Config.freeRemaining draw = 0 then Stage.ofIndex (k + 1) else c.stage) ∧
      (schedule[k] = 3 → d.chunk[i] = 0))

/-- R131, R146 (from `SIN32_ZERO`, decision D8): the first sample of every bit period and of the attention stage is 0. -/
def Obligations.FirstSampleIsZero : Prop :=
  ∀ s : State,
    (s.ctx.dataPos.toNat < 268 → s.ctx.sampleNum = 0 → ∃ t, exec .emitAfskHdr s = .next t ∧ t.synth = .emitted 0) ∧
    (s.ctx.dataPos.toNat < 20 → s.ctx.sampleNum = 0 → ∃ t, exec .emitAfskEom s = .next t ∧ t.synth = .emitted 0) ∧
    (s.ctx.attnSampleNum = 0 → ∃ t, exec .emitAttn s = .next t ∧ t.synth = .emitted 0)

/-- R129: an AFSK sample depends on the bit and on the index within the bit alone, and is the same in a header burst and in an EOM
burst. -/
def Obligations.AfskSampleDependsOnBitAndIndex : Prop :=
  ∀ (s s' : State) (b b' : Byte),
    s.ctx.encBytes[s.ctx.dataPos.toNat]? = some b →
    b.getLsbD s.ctx.bitPos.toNat = b'.getLsbD s'.ctx.bitPos.toNat → s.ctx.sampleNum = s'.ctx.sampleNum →
    (s'.ctx.encBytes[s'.ctx.dataPos.toNat]? = some b' →
      ∃ t t' v, exec .emitAfskHdr s = .next t ∧ exec .emitAfskHdr s' = .next t' ∧
        t.synth = .emitted v ∧ t'.synth = .emitted v) ∧
    (eomBytes[s'.ctx.dataPos.toNat]? = some b' →
      ∃ t t' v, exec .emitAfskHdr s = .next t ∧ exec .emitAfskEom s' = .next t' ∧
        t.synth = .emitted v ∧ t'.synth = .emitted v)

/-- R126, R127: the sub-state after `m` steps of a pass over `len` bytes from a cleared sub-state, and cleared again after
680 × `len` steps. -/
def Obligations.BurstPassPositions : Prop :=
  ∀ (len m : Nat) (c : Context), len ≤ 511 → c.dataPos = 0 → c.bitPos = 0 → c.sampleNum = 0 → m ≤ 680 * len →
    let d := (advanceAfsk len)^[m] c
    let p := if m < 680 * len then m else 0
    d.dataPos.toNat = p / 680 ∧ d.bitPos.toNat = p % 680 / 85 ∧ d.sampleNum.toNat = p % 85

/-- R81, R125, R146: every sample a micro-operation returns lies in -32767 .. 32767. -/
def Obligations.SamplesStayInRange : Prop :=
  ∀ (i : Instr) (s t : State) (v : Sample), i.format = .schedule → exec i s = .next t → t.synth = .emitted v →
    -32767 ≤ v.toInt ∧ v.toInt ≤ 32767

/-- R40: the frame of the four micro-operations: each writes its own sub-state and nothing else; the model's draw counter moves in
`EMIT_ATTN` alone (log entry 19). -/
def Obligations.MicroOperationsWriteTheirSubStateOnly : Prop :=
  ∀ (i : Instr) (s t : State), i.format = .schedule → exec i s = .next t →
    (t = { s with ctx := t.ctx, synth := t.synth, draws := t.draws }) ∧
    (t.ctx.encBytes = s.ctx.encBytes ∧ t.ctx.encLen = s.ctx.encLen ∧ t.ctx.remaining = s.ctx.remaining ∧
      t.ctx.stage = s.ctx.stage ∧ t.ctx.chunk = s.ctx.chunk) ∧
    (i ≠ .emitAttn → t.ctx.attnSampleNum = s.ctx.attnSampleNum ∧ t.draws = s.draws) ∧
    (i = .emitAttn ∨ i = .emitSilence →
      t.ctx.dataPos = s.ctx.dataPos ∧ t.ctx.bitPos = s.ctx.bitPos ∧ t.ctx.sampleNum = s.ctx.sampleNum)

/-! ### The Sequencer -/

/-- R25, R78: the contents of the EOM burst. -/
def Obligations.EomBurstContents : Prop :=
  (∀ i < 16, eomBytes[i]? = some 0xAB) ∧ (∀ i, 16 ≤ i → i < 20 → eomBytes[i]? = some 0x4E)

/-- R73, R74: the micro-operation that owns each stage. The codes are decision D4. -/
def Obligations.ScheduleOwnsEachStage : Prop :=
  ∀ (st : Stage) (k : Fin 14), st.live = some k → decodeSchedule schedule[k] =
    match st with
    | .hdr1 | .hdr2 | .hdr3 => .emitAfskHdr
    | .eom1 | .eom2 | .eom3 => .emitAfskEom
    | .attn => .emitAttn
    | .sil1 | .sil2 | .sil3 | .sil4 | .sil5 | .sil6 | .sil7 | .done => .emitSilence

/-- R163 to R165: a slot step runs the micro-operation `SCHEDULE` names for the current stage, stores its sample in the slot,
lowers the stage's counter by one and advances the stage exactly where the counter becomes 0. A counter at 0 goes down to a free
value (log entry 19). -/
def Obligations.SlotStepRunsTheScheduledMicroOperation : Prop :=
  ∀ (s t : State) (k : Fin 14) (i : Fin 4096) (v : Sample),
    s.ctx.stage.live = some k →
    exec (decodeSchedule schedule[k]) s = .next t → t.synth = .emitted v →
    ∃ c, slotStep s.draws i k s.ctx = .ok c ∧
      c.chunk[i] = v ∧ (∀ j : Fin 4096, j ≠ i → c.chunk[j] = s.ctx.chunk[j]) ∧
      (s.ctx.remaining[k] ≠ 0 → c.remaining[k] = s.ctx.remaining[k] - 1) ∧
      (∀ l : Fin 14, l ≠ k → c.remaining[l] = s.ctx.remaining[l]) ∧
      c.stage = (if c.remaining[k] = 0 then Stage.ofIndex (k + 1) else s.ctx.stage) ∧
      c.dataPos = t.ctx.dataPos ∧ c.bitPos = t.ctx.bitPos ∧ c.sampleNum = t.ctx.sampleNum ∧
      c.attnSampleNum = t.ctx.attnSampleNum ∧ c.encBytes = s.ctx.encBytes ∧ c.encLen = s.ctx.encLen

/-- R162, R166, R167, R175: in the invariant a `GENERATE_CHUNK` past its preconditions completes; it writes 1 to 4096 slots, fewer
than 4096 only where it reaches `DONE`, lowers the sum of `REMAINING` by exactly `COUNT` and draws no free value. -/
def Obligations.GenerateChunkCompletes : Prop :=
  ∀ s : State, s.Inv → s.generating → ∃ t, exec .generateChunk s = .next t ∧
    1 ≤ t.count.toNat ∧ t.count.toNat ≤ 4096 ∧ (t.count.toNat = 4096 ∨ t.ctx.stage = .done) ∧
    remainingSum s.ctx = remainingSum t.ctx + t.count.toNat ∧ t.draws = s.draws

/-- R165, R27: the stage never goes back; in the invariant a command leaves the current stage for at most the next one. -/
def Obligations.StageOnlyMovesForward : Prop :=
  ∀ s t : State, s.generating → exec .generateChunk s = .next t →
    s.ctx.stage.index ≤ t.ctx.stage.index ∧ (s.Inv → t.ctx.stage.index ≤ s.ctx.stage.index + 1)

/-- The frame of `GENERATE_CHUNK` past its preconditions (R160, R40, R62): the input record, the encoded header, the flags and the
model's own registers but the draw counter are unchanged. -/
def Obligations.GenerateChunkFrame : Prop :=
  ∀ s t : State, s.generating → exec .generateChunk s = .next t →
    t = { s with ctx := t.ctx, count := t.count, draws := t.draws } ∧ t.ctx.encBytes = s.ctx.encBytes ∧ t.ctx.encLen = s.ctx.encLen

/-- R168: the slots from `COUNT` on keep the values they had before the command. -/
def Obligations.UnfilledTailIsKept : Prop :=
  ∀ s t : State, s.generating → exec .generateChunk s = .next t →
    ∀ j : Fin 4096, t.count.toNat ≤ j.val → t.ctx.chunk[j] = s.ctx.chunk[j]

/-- R62: a change of the input record after `CONFIGURE` does not change what a `GENERATE_CHUNK` past its preconditions does. The
premise `t.draws = s.draws` says that no free value was drawn, so nothing is claimed of two draws being equal (log entry 3); in the
invariant it holds (`GenerateChunkCompletes`). -/
def Obligations.GenerationIgnoresTheInputRecord : Prop :=
  ∀ (s t : State) (h : AlertHeader), s.generating → exec .generateChunk s = .next t → t.draws = s.draws →
    exec .generateChunk { s with header := h } = .next { t with header := h }

/-- R174: the registers of a complete alert. -/
def Obligations.CompleteAlertRegisters : Prop :=
  ∀ s : State, s.Inv → s.configured = true → s.complete →
    (∀ k : Fin 14, s.ctx.remaining[k] = 0) ∧ s.ctx.dataPos = 0 ∧ s.ctx.bitPos = 0 ∧ s.ctx.sampleNum = 0 ∧
    ∃ secs : Nat, 1 ≤ secs ∧ secs ≤ 255 ∧ s.ctx.attnSampleNum.toNat = secs * 44100

/-! ### Whole alerts -/

/-- R170 to R172, R167: `RUN_ALERT` reaches `DONE` after `NCALLS` commands, and the samples the host consumes are, one by one, the
stream that R171 gives as a function of the configuration alone. The last command's `COUNT` is `TOTAL` mod 4096, or 4096, and `ATTN_SAMPLE_NUM`
ends at the configured duration in samples (R174). -/
def Obligations.AlertEmitsTheStream : Prop :=
  ∀ s : State, s.configurable →
    let encLen := 50 + 7 * s.locations
    let secs := s.header.attnSeconds.toNat
    let total := 2040 * encLen + 349500 + 44100 * secs
    ∃ u out, runAlert ((total + 4095) / 4096) s = .next (u, out) ∧ u.ctx.stage = .done ∧ u.fault = false ∧
      u.count.toNat = (if total % 4096 = 0 then 4096 else total % 4096) ∧ out.length = total ∧
      u.ctx.attnSampleNum.toNat = secs * 44100 ∧
      ∀ m < total, out[m]? = alertSample u.ctx.encBytes encLen secs m

/-- R169: after the last command of a complete alert every slot of `CHUNK` holds 0. -/
def Obligations.StaleTailIsSilence : Prop :=
  ∀ s : State, s.configurable →
    ∃ u out, runAlert ((2040 * (50 + 7 * s.locations) + 349500 + 44100 * s.header.attnSeconds.toNat + 4095) / 4096) s =
      .next (u, out) ∧ ∀ i : Fin 4096, u.ctx.chunk[i] = 0

/-! ### Reset and the invariant -/

/-- R39, R200, R201 (decision D9): after `RESET` the three flags are 0 and the core is idle; it holds its state until the host
acts, and `GENERATE_CHUNK` raises `Fault(NO_CONTEXT)`. -/
def Obligations.ResetStateIsIdle : Prop :=
  State.reset.configured = false ∧ State.reset.fault = false ∧ State.reset.faultCause = .none ∧
  step State.reset = .next State.reset ∧
  ∃ t, exec .generateChunk State.reset = .next t ∧ FaultEntered .noContext State.reset t

/-- R200 (decision D9): the `RESET` event clears the three flags from any state, a faulted one included. -/
def Obligations.ResetEventClearsTheFlags : Prop :=
  ∀ (s : State) (rest : List HostAction), s.atRest → s.inbox = .reset :: rest →
    ∃ t, step s = .next t ∧ t.configured = false ∧ t.fault = false ∧ t.faultCause = .none ∧ t.inbox = rest

/-- The state after reset meets the invariant. -/
def Obligations.ResetMeetsTheInvariant : Prop := State.reset.Inv

/-- Every step keeps the invariant, from every state that meets it. -/
def Obligations.StepKeepsTheInvariant : Prop := ∀ s t : State, s.Inv → step s = .next t → t.Inv

/-- R175, R180, R14, R64: no state that meets the invariant can stop: every step answers a next state. -/
def Obligations.InvariantNeverStops : Prop := ∀ s : State, s.Inv → ∃ t, step s = .next t

/-! ### The host's side -/

/-- R21, R59: a host write changes the one byte register it names. -/
def Obligations.HostWriteChangesOneRegister : Prop :=
  ∀ (s : State) (r : AhReg) (v : Byte) (rest : List HostAction), s.atRest → s.inbox = .write r v :: rest →
    ∃ t, step s = .next t ∧ readAh t.header r = v ∧ (∀ r', r' ≠ r → readAh t.header r' = readAh s.header r') ∧
      t = { s with header := t.header, inbox := rest }

/-- R83 (decision D13): the host actions of `LOAD_HEADER` load the fields, the codes and the marker, leave the entries above the
marker, and touch no context. -/
def Obligations.LoadHeaderLoadsTheRecord : Prop :=
  ∀ (s : State) (org evt : Vector Byte 3) (locs : List (Vector Byte 6)) (vtp : Vector Byte 4) (otime : Vector Byte 7)
    (call : Vector Byte 8) (secs : BitVec 8) (rest : List HostAction),
    locs.length ≤ 31 → s.atRest → s.inbox = loadHeader org evt locs vtp otime call secs ++ rest →
    ∃ t : State, Host.Core.run core (loadHeader org evt locs vtp otime call secs).length s = .next t ∧
      t.header.org = org ∧ t.header.evt = evt ∧ t.header.vtp = vtp ∧ t.header.otime = otime ∧ t.header.call = call ∧
      t.header.attnSeconds = secs ∧
      (∀ k : Fin 31, k.val < locs.length → locs[k.val]? = some t.header.loc[k]) ∧
      (∀ k : Fin 31, k.val = locs.length → t.header.loc[k] = Config.locEndMarker) ∧
      (∀ k : Fin 31, locs.length < k.val → t.header.loc[k] = s.header.loc[k]) ∧
      t = { s with header := t.header, inbox := rest }

/-- R51: the byte view of `CHUNK`: slot `i` is bytes `2i` (bits 7 to 0) and `2i+1` (bits 15 to 8). -/
def Obligations.SamplesAreLittleEndian : Prop :=
  ∀ (c : Context) (i : Fin 4096),
    chunkByte c (2 * i) = some (c.chunk[i].extractLsb' 0 8) ∧ chunkByte c (2 * i + 1) = some (c.chunk[i].extractLsb' 8 8)

/-! ### The datapath -/

/-- R13 (decision D23): `fl32` answers a nearest pattern, and of two equally near ones the even one. Magnitudes are in units of
2^-149; the statement is about every exact magnitude `num / den` that does not round to infinity. -/
def Obligations.RoundingIsNearestTiesToEven : Prop :=
  ∀ num den p : Nat, 0 < den → p < f32Inf → roundUnits num den < f32Inf →
    let r := roundUnits num den
    let gap := fun q : Nat => ((patternUnits q * den : Nat) - (num : Int)).natAbs
    gap r ≤ gap p ∧ (gap r = gap p → p ≠ r → r % 2 = 0)

/-- R13, R144: `F32(n)` is exact for every `n` below 2^24. -/
def Obligations.IntegerConversionIsExact : Prop :=
  ∀ n : Nat, n < 2 ^ 24 → f32Finite (f32OfNat n) = true ∧ f32Int (f32OfNat n) = (2 ^ 149 * n : Nat)

/-- R14 (decision D7): `TO_S16` answers the nearest integer, half-way cases away from zero, exactly where the value is a number of
magnitude at most 32767. -/
def Obligations.SampleConversionIsNearestTiesAway : Prop :=
  ∀ y : F32,
    (f32Finite y = true → f32Units y ≤ 32767 * 2 ^ 149 → ∃ v, toS16 y = some v ∧
      2 * (v.toInt * 2 ^ 149 - f32Int y).natAbs ≤ 2 ^ 149 ∧
      (2 * (v.toInt * 2 ^ 149 - f32Int y).natAbs = 2 ^ 149 → (f32Int y).natAbs < (v.toInt * 2 ^ 149).natAbs)) ∧
    (f32Finite y = false ∨ 32767 * 2 ^ 149 < f32Units y → toS16 y = none)

/-- R15 (decision D8): the sine of the model has the three properties, and every function that has them is one the parameter can
be. The parameter is log entry 2. -/
def Obligations.SineIsAnyAdmissibleFunction : Prop :=
  (sin32 0 = 0 ∧ ∀ x, f32Finite x = true → f32Finite (sin32 x) = true ∧ f32Abs (sin32 x) ≤ 0x3F800000) ∧
  ∀ f : F32 → F32, f 0 = 0 → (∀ x, f32Finite x = true → f32Finite (f x) = true ∧ f32Abs (f x) ≤ 0x3F800000) →
    admissibleSin f = f

/-- R13 (decision D23): the four operations of the datapath are each `fl32` of the exact real result. An operand's value is
`f32Int` units of 2^-149, so a product is in units of 2^-298 and a quotient has no unit. Infinite and NaN operands, a zero divisor
and the sign of a zero are log entry 7. -/
def Obligations.ArithmeticIsCorrectlyRounded : Prop :=
  (∀ n : Nat, Nearest32 (2 ^ 149 * n : Nat) 1 (f32OfNat n)) ∧
  ∀ a b : F32, f32Finite a = true → f32Finite b = true →
    Nearest32 (f32Int a + f32Int b) 1 (f32Add a b) ∧
    Nearest32 (f32Int a * f32Int b) (2 ^ 149) (f32Mul a b) ∧
    (f32Int b ≠ 0 → Nearest32 (2 ^ 149 * f32Int a * (f32Int b).sign) (f32Int b).natAbs (f32Div a b))
end

