-- ==== Sys2Proof/Laws/Float.lean ====
section
/-! SUPPORT. The binary32 primitives: rounding never passes a representable bound, and what that gives of the operations, the
sine and the samples. -/

namespace Sys2Proof.Machine

theorem nearestEven_le_of_le_mul {num den m : Nat} (hd : 0 < den) (h : num ≤ den * m) : nearestEven num den ≤ m := by
  have hdiv := Nat.div_add_mod num den
  have hr := Nat.mod_lt num hd
  have hq : num / den ≤ m := Nat.div_le_of_le_mul h
  have hup : den ≤ 2 * (num % den) → num / den + 1 ≤ m := by
    intro h2
    by_contra hlt
    have : num / den = m := by omega
    rw [this] at hdiv
    omega
  unfold nearestEven
  dsimp only
  split
  · exact hq
  · split
    · exact hup (by omega)
    · split
      · exact hq
      · exact hup (by omega)

theorem nearestEven_le_succ (num den : Nat) : nearestEven num den ≤ num / den + 1 := by
  unfold nearestEven
  dsimp only
  split_ifs <;> omega

theorem patternUnits_of_lt {p : Nat} (h : p < 2 ^ 24) : patternUnits p = p := by
  unfold patternUnits
  split
  · rfl
  · have h1 : p / 2 ^ 23 = 1 := by omega
    rw [h1]
    omega

theorem two_pow_le_of_lastPlace_pos {q : Nat} (h : 0 < lastPlace q) : 2 ^ (23 + lastPlace q) ≤ q := by
  unfold lastPlace at *
  have hq : q ≠ 0 := by rintro rfl; simp at h
  have : 23 + (Nat.log2 q - 23) = Nat.log2 q := by omega
  rw [this]
  exact Nat.log2_self_le hq

theorem lt_two_pow_lastPlace (q : Nat) : q < 2 ^ (24 + lastPlace q) := by
  rcases Nat.eq_zero_or_pos q with rfl | hq
  · exact Nat.two_pow_pos _
  · have h1 : q < 2 ^ (Nat.log2 q + 1) := Nat.lt_log2_self
    exact lt_of_lt_of_le h1 (Nat.pow_le_pow_right (by omega) (by unfold lastPlace; omega))

/-- The significand a rounding leaves fits 24 bits, or is exactly 2^24. -/
theorem roundedSignificand_le (num den : Nat) :
    nearestEven num (den * 2 ^ lastPlace (num / den)) ≤ 2 ^ 24 := by
  refine (nearestEven_le_succ _ _).trans ?_
  rw [← Nat.div_div_eq_div_mul]
  have h := lt_two_pow_lastPlace (num / den)
  rw [pow_add] at h
  have : num / den / 2 ^ lastPlace (num / den) < 2 ^ 24 := by
    rw [Nat.div_lt_iff_lt_mul (Nat.two_pow_pos _)]
    exact h
  omega

/-- Rounding never passes a representable bound: below `den * patternUnits P` it answers at most `P`. -/
theorem roundUnits_le {num den P : Nat} (hd : 0 < den) (h : num ≤ den * patternUnits P) : roundUnits num den ≤ P := by
  have hm := roundedSignificand_le num den
  unfold roundUnits
  dsimp only
  refine (min_le_left _ _).trans ?_
  generalize he : lastPlace (num / den) = e at *
  rcases Nat.eq_zero_or_pos e with rfl | hpos
  · by_cases hP : P < 2 ^ 24
    · rw [patternUnits_of_lt hP] at h
      have := nearestEven_le_of_le_mul (den := den * 2 ^ 0) (by omega) (by simpa using h)
      omega
    · omega
  · have hq : 2 ^ (23 + e) ≤ num / den := he ▸ two_pow_le_of_lastPlace_pos (by omega)
    have hV : 2 ^ (23 + e) ≤ patternUnits P := hq.trans (Nat.div_le_of_le_mul h)
    unfold patternUnits at h hV
    by_cases hP : P < 2 ^ 23
    · rw [if_pos hP] at hV
      have : 2 ^ 23 ≤ 2 ^ (23 + e) := Nat.pow_le_pow_right (by omega) (by omega)
      omega
    · rw [if_neg hP] at h hV
      have hPd : P = (P / 2 ^ 23 - 1 + 1) * 2 ^ 23 + P % 2 ^ 23 := by omega
      generalize P / 2 ^ 23 - 1 = a at *
      have hf : P % 2 ^ 23 < 2 ^ 23 := Nat.mod_lt _ (by omega)
      generalize P % 2 ^ 23 = f at *
      have hlt : 2 ^ (23 + e) < 2 ^ (24 + a) := by
        rw [show 2 ^ (24 + a) = 2 ^ 24 * 2 ^ a from pow_add _ _ _]
        exact lt_of_le_of_lt hV (Nat.mul_lt_mul_of_pos_right (by omega) (Nat.two_pow_pos a))
      have hea : 23 + e < 24 + a := (Nat.pow_lt_pow_iff_right (by omega)).mp hlt
      rcases Nat.lt_or_ge e a with hlt | hge
      · omega
      · obtain rfl : e = a := by omega
        have := nearestEven_le_of_le_mul (num := num) (den := den * 2 ^ e) (m := 2 ^ 23 + f)
          (Nat.mul_pos hd (Nat.two_pow_pos _)) (by rw [Nat.mul_assoc, Nat.mul_comm (2 ^ e)]; exact h)
        omega

theorem roundUnits_le_inf (num den : Nat) : roundUnits num den ≤ f32Inf := min_le_right _ _

/-! ### Patterns and magnitudes -/

theorem patternUnits_mono {p p' : Nat} (h : p ≤ p') : patternUnits p ≤ patternUnits p' := by
  unfold patternUnits
  by_cases h1 : p < 2 ^ 23
  · rw [if_pos h1]
    split
    · exact h
    · refine Nat.le_trans (by omega : p ≤ (2 ^ 23 + p' % 2 ^ 23) * 1) ?_
      exact Nat.mul_le_mul_left _ (Nat.two_pow_pos _)
  · rw [if_neg h1, if_neg (by omega)]
    rcases Nat.lt_or_ge (p / 2 ^ 23) (p' / 2 ^ 23) with hlt | hge
    · calc (2 ^ 23 + p % 2 ^ 23) * 2 ^ (p / 2 ^ 23 - 1)
          ≤ 2 ^ 24 * 2 ^ (p / 2 ^ 23 - 1) := Nat.mul_le_mul_right _ (by omega)
        _ = 2 ^ 23 * 2 ^ (p / 2 ^ 23) := by
            rw [show p / 2 ^ 23 = p / 2 ^ 23 - 1 + 1 by omega, pow_succ]; simp; ring
        _ ≤ 2 ^ 23 * 2 ^ (p' / 2 ^ 23 - 1) :=
            Nat.mul_le_mul_left _ (Nat.pow_le_pow_right (by omega) (by omega))
        _ ≤ _ := Nat.mul_le_mul_right _ (by omega)
    · have he : p / 2 ^ 23 = p' / 2 ^ 23 := by omega
      rw [he]
      exact Nat.mul_le_mul_right _ (by omega)

@[simp] theorem f32Abs_pack {neg : Bool} {p : Nat} (h : p ≤ f32Inf) : f32Abs (f32Pack neg p) = p := by
  unfold f32Inf at h
  unfold f32Abs f32Pack
  rw [BitVec.toNat_ofNat]
  cases neg <;> simp <;> omega

/-- A finite operation's result: bounded by any representable bound on the exact magnitude. -/
theorem f32Abs_pack_roundUnits_le {neg : Bool} {num den P : Nat} (hd : 0 < den) (h : num ≤ den * patternUnits P) :
    f32Abs (f32Pack neg (roundUnits num den)) ≤ P := by
  rw [f32Abs_pack (roundUnits_le_inf _ _)]
  exact roundUnits_le hd h

theorem f32Finite_iff {x : F32} : f32Finite x = true ↔ f32Abs x < f32Inf := by simp [f32Finite]

theorem not_isNan_of_finite {x : F32} (h : f32Abs x < f32Inf) : f32IsNan x = false := by
  simp only [f32IsNan, decide_eq_false_iff_not]; omega

theorem f32Mul_abs_le {a b : F32} {A B P : Nat} (ha : f32Abs a ≤ A) (hb : f32Abs b ≤ B) (hA : A < f32Inf) (hB : B < f32Inf)
    (h : patternUnits A * patternUnits B ≤ 2 ^ 149 * patternUnits P) : f32Abs (f32Mul a b) ≤ P := by
  have ha' := lt_of_le_of_lt ha hA
  have hb' := lt_of_le_of_lt hb hB
  unfold f32Mul
  simp only [not_isNan_of_finite ha', not_isNan_of_finite hb', f32Finite_iff.mpr ha', f32Finite_iff.mpr hb', Bool.or_self,
    Bool.and_self, if_true, Bool.false_eq_true, if_false]
  exact f32Abs_pack_roundUnits_le (Nat.two_pow_pos _)
    ((Nat.mul_le_mul (patternUnits_mono ha) (patternUnits_mono hb)).trans h)

theorem f32Div_abs_le {a b : F32} {A P : Nat} (ha : f32Abs a ≤ A) (hA : A < f32Inf) (hb : f32Abs b < f32Inf)
    (hb0 : f32Abs b ≠ 0) (hu : 0 < f32Units b) (h : 2 ^ 149 * patternUnits A ≤ f32Units b * patternUnits P) :
    f32Abs (f32Div a b) ≤ P := by
  have ha' := lt_of_le_of_lt ha hA
  unfold f32Div
  simp only [not_isNan_of_finite ha', not_isNan_of_finite hb, f32Finite_iff.mpr ha', f32Finite_iff.mpr hb, Bool.or_self,
    Bool.and_self, if_true, Bool.false_eq_true, if_false, hb0]
  exact f32Abs_pack_roundUnits_le hu ((Nat.mul_le_mul_left _ (patternUnits_mono ha)).trans h)

theorem natAbs_f32Int (x : F32) : (f32Int x).natAbs = f32Units x := by
  unfold f32Int; split <;> simp

theorem f32Add_abs_le {a b : F32} {A B P : Nat} (ha : f32Abs a ≤ A) (hb : f32Abs b ≤ B) (hA : A < f32Inf) (hB : B < f32Inf)
    (h : patternUnits A + patternUnits B ≤ patternUnits P) : f32Abs (f32Add a b) ≤ P := by
  have ha' := lt_of_le_of_lt ha hA
  have hb' := lt_of_le_of_lt hb hB
  unfold f32Add
  simp only [not_isNan_of_finite ha', not_isNan_of_finite hb', f32Finite_iff.mpr ha', f32Finite_iff.mpr hb', Bool.or_self,
    Bool.and_self, if_true, Bool.false_eq_true, if_false]
  split
  · rw [f32Abs_pack (Nat.zero_le _)]; exact Nat.zero_le _
  · refine f32Abs_pack_roundUnits_le Nat.one_pos ?_
    have h1 := Int.natAbs_add_le (f32Int a) (f32Int b)
    rw [natAbs_f32Int, natAbs_f32Int] at h1
    have h2 : f32Units a ≤ patternUnits A := patternUnits_mono ha
    have h3 : f32Units b ≤ patternUnits B := patternUnits_mono hb
    omega

theorem f32OfNat_abs_le {n P : Nat} (h : 2 ^ 149 * n ≤ patternUnits P) : f32Abs (f32OfNat n) ≤ P :=
  f32Abs_pack_roundUnits_le Nat.one_pos (by simpa using h)

/-! ### The phase, the sine and the samples -/

/-- The phase argument is finite for every index a counter can hold and every tone frequency. -/
theorem phase_finite {n : Nat} {f : F32} (hn : n < 2 ^ 32) (hf : f32Abs f ≤ 0x45800000) : f32Finite (phase n f) = true := by
  have h1 : f32Abs (f32OfNat n) ≤ 0x4F800000 := f32OfNat_abs_le (by
    rw [show patternUnits 0x4F800000 = 2 ^ 149 * 2 ^ 32 by decide +kernel]
    exact Nat.mul_le_mul_left _ hn.le)
  have h2 : f32Abs (sampleTime n) ≤ 0x4F800000 :=
    f32Div_abs_le h1 (by decide) (by decide +kernel) (by decide +kernel) (by decide +kernel) (by decide +kernel)
  have h3 : f32Abs (f32Mul Config.twoPi (sampleTime n)) ≤ 0x51000000 :=
    f32Mul_abs_le (A := 0x41000000) (by decide +kernel) h2 (by decide) (by decide) (by decide +kernel)
  have h4 : f32Abs (phase n f) ≤ 0x57000000 := f32Mul_abs_le h3 hf (by decide) (by decide) (by decide +kernel)
  exact f32Finite_iff.mpr (lt_of_le_of_lt h4 (by decide))

/-- `SIN32_ZERO` (R15 (a)). -/
@[simp] theorem sin32_zero : sin32 0 = 0 := by simp [sin32, admissibleSin]

/-- `SIN32_BOUNDED` (R15 (b)). -/
theorem sin32_bounded {x : F32} (h : f32Finite x = true) : f32Abs (sin32 x) ≤ 0x3F800000 := by
  unfold sin32 admissibleSin
  split
  · decide
  · split
    · decide
    · rename_i h1
      simpa [h, withinOne] using h1

theorem toS16_isSome {y : F32} (h : f32Abs y ≤ 0x46FFFE00) : (toS16 y).isSome := by
  have hf : f32Finite y = true := f32Finite_iff.mpr (lt_of_le_of_lt h (by decide))
  have hu : f32Units y ≤ 32767 * 2 ^ 149 := (patternUnits_mono h).trans (by decide +kernel)
  unfold toS16
  rw [if_pos (by rw [hf]; simpa using hu)]
  rfl

/-- A value of magnitude at most 1 scales to a sample. -/
theorem scaled_isSome {s : F32} (h : f32Abs s ≤ 0x3F800000) : (toS16 (f32Mul s Config.int16MaxF32)).isSome :=
  toS16_isSome (f32Mul_abs_le h (B := 0x46FFFE00) (by decide) (by decide) (by decide) (by decide +kernel))

/-- An AFSK slot step always has a sample (R125). -/
theorem afskSample_isSome (bit : Bool) {n : Nat} (hn : n < 2 ^ 32) : (afskSample sin32 bit n).isSome :=
  scaled_isSome (sin32_bounded (phase_finite hn (by cases bit <;> decide +kernel)))

/-- An attention slot step always has a sample (R146). -/
theorem attnSample_isSome {n : Nat} (hn : n < 2 ^ 32) : (attnSample sin32 n).isSome := by
  have h1 := sin32_bounded (phase_finite (f := Config.attnF1) hn (by decide +kernel))
  have h2 := sin32_bounded (phase_finite (f := Config.attnF2) hn (by decide +kernel))
  have h3 := f32Add_abs_le (P := 0x40000000) h1 h2 (by decide) (by decide) (by decide +kernel)
  exact scaled_isSome (f32Div_abs_le h3 (by decide) (by decide) (by decide) (by decide +kernel) (by decide +kernel))

theorem afskSample_eq_some (bit : Bool) {n : Nat} (hn : n < 2 ^ 32) : ∃ v, afskSample sin32 bit n = some v :=
  Option.isSome_iff_exists.mp (afskSample_isSome bit hn)

theorem attnSample_eq_some {n : Nat} (hn : n < 2 ^ 32) : ∃ v, attnSample sin32 n = some v :=
  Option.isSome_iff_exists.mp (attnSample_isSome hn)

end Sys2Proof.Machine
end

