-- ==== Sys2Proof/Laws/State.lean ====
section
/-! SUPPORT. One lemma for each field under each named update of the state and of the context. -/

namespace Sys2Proof.Machine

section flags
variable (cause : Cause) (s : State)

@[simp] theorem raiseFlags_header : (raiseFlags cause s).header = s.header := rfl
@[simp] theorem raiseFlags_ctx : (raiseFlags cause s).ctx = s.ctx := rfl
@[simp] theorem raiseFlags_configured : (raiseFlags cause s).configured = s.configured := rfl
@[simp] theorem raiseFlags_fault : (raiseFlags cause s).fault = true := rfl
@[simp] theorem raiseFlags_faultCause : (raiseFlags cause s).faultCause = cause := rfl
@[simp] theorem raiseFlags_count : (raiseFlags cause s).count = s.count := rfl
@[simp] theorem raiseFlags_synth : (raiseFlags cause s).synth = s.synth := rfl
@[simp] theorem raiseFlags_inbox : (raiseFlags cause s).inbox = s.inbox := rfl
@[simp] theorem raiseFlags_draws : (raiseFlags cause s).draws = s.draws := rfl

@[simp] theorem clearFlags_header : (clearFlags s).header = s.header := rfl
@[simp] theorem clearFlags_ctx : (clearFlags s).ctx = s.ctx := rfl
@[simp] theorem clearFlags_configured : (clearFlags s).configured = false := rfl
@[simp] theorem clearFlags_fault : (clearFlags s).fault = false := rfl
@[simp] theorem clearFlags_faultCause : (clearFlags s).faultCause = .none := rfl
@[simp] theorem clearFlags_count : (clearFlags s).count = s.count := rfl
@[simp] theorem clearFlags_synth : (clearFlags s).synth = s.synth := rfl
@[simp] theorem clearFlags_inbox : (clearFlags s).inbox = s.inbox := rfl
@[simp] theorem clearFlags_draws : (clearFlags s).draws = s.draws := rfl

@[simp] theorem markConfigured_header : (markConfigured s).header = s.header := rfl
@[simp] theorem markConfigured_ctx : (markConfigured s).ctx = s.ctx := rfl
@[simp] theorem markConfigured_configured : (markConfigured s).configured = true := rfl
@[simp] theorem markConfigured_fault : (markConfigured s).fault = s.fault := rfl
@[simp] theorem markConfigured_faultCause : (markConfigured s).faultCause = s.faultCause := rfl
@[simp] theorem markConfigured_count : (markConfigured s).count = 0 := rfl
@[simp] theorem markConfigured_synth : (markConfigured s).synth = s.synth := rfl
@[simp] theorem markConfigured_inbox : (markConfigured s).inbox = s.inbox := rfl
@[simp] theorem markConfigured_draws : (markConfigured s).draws = s.draws := rfl
end flags

section faultEntry
variable (cause : Cause) (s : State)

@[simp] theorem faultEntry_header : (faultEntry cause s).header = s.header := rfl
@[simp] theorem faultEntry_configured : (faultEntry cause s).configured = s.configured := rfl
@[simp] theorem faultEntry_fault : (faultEntry cause s).fault = true := rfl
@[simp] theorem faultEntry_faultCause : (faultEntry cause s).faultCause = cause := rfl
@[simp] theorem faultEntry_synth : (faultEntry cause s).synth = s.synth := rfl
@[simp] theorem faultEntry_inbox : (faultEntry cause s).inbox = s.inbox := rfl
@[simp] theorem faultEntry_draws : (faultEntry cause s).draws = s.draws + 1 := rfl

@[simp] theorem resetEvent_configured : (resetEvent s).configured = false := rfl
@[simp] theorem resetEvent_fault : (resetEvent s).fault = false := rfl
@[simp] theorem resetEvent_faultCause : (resetEvent s).faultCause = .none := rfl
@[simp] theorem resetEvent_synth : (resetEvent s).synth = s.synth := rfl
@[simp] theorem resetEvent_inbox : (resetEvent s).inbox = s.inbox := rfl
@[simp] theorem resetEvent_draws : (resetEvent s).draws = s.draws + 1 := rfl
end faultEntry

section context
variable (i : Nat) (v : Sample) (k : Fin 14) (c : Context) (free : BitVec 32)

@[simp] theorem storeSample_encBytes : (storeSample i v c).encBytes = c.encBytes := rfl
@[simp] theorem storeSample_encLen : (storeSample i v c).encLen = c.encLen := rfl
@[simp] theorem storeSample_remaining : (storeSample i v c).remaining = c.remaining := rfl
@[simp] theorem storeSample_stage : (storeSample i v c).stage = c.stage := rfl
@[simp] theorem storeSample_dataPos : (storeSample i v c).dataPos = c.dataPos := rfl
@[simp] theorem storeSample_bitPos : (storeSample i v c).bitPos = c.bitPos := rfl
@[simp] theorem storeSample_sampleNum : (storeSample i v c).sampleNum = c.sampleNum := rfl
@[simp] theorem storeSample_attnSampleNum : (storeSample i v c).attnSampleNum = c.attnSampleNum := rfl
@[simp] theorem storeSample_chunk : (storeSample i v c).chunk = c.chunk.setIfInBounds i v := rfl

@[simp] theorem decrementRemaining_encBytes : (decrementRemaining free k c).encBytes = c.encBytes := rfl
@[simp] theorem decrementRemaining_encLen : (decrementRemaining free k c).encLen = c.encLen := rfl
@[simp] theorem decrementRemaining_remaining :
    (decrementRemaining free k c).remaining = c.remaining.set k (countDown free c.remaining[k]) := rfl
@[simp] theorem decrementRemaining_stage : (decrementRemaining free k c).stage = c.stage := rfl
@[simp] theorem decrementRemaining_dataPos : (decrementRemaining free k c).dataPos = c.dataPos := rfl
@[simp] theorem decrementRemaining_bitPos : (decrementRemaining free k c).bitPos = c.bitPos := rfl
@[simp] theorem decrementRemaining_sampleNum : (decrementRemaining free k c).sampleNum = c.sampleNum := rfl
@[simp] theorem decrementRemaining_attnSampleNum : (decrementRemaining free k c).attnSampleNum = c.attnSampleNum := rfl
@[simp] theorem decrementRemaining_chunk : (decrementRemaining free k c).chunk = c.chunk := rfl

@[simp] theorem advanceStage_encBytes : (advanceStage k c).encBytes = c.encBytes := by unfold advanceStage; split <;> rfl
@[simp] theorem advanceStage_encLen : (advanceStage k c).encLen = c.encLen := by unfold advanceStage; split <;> rfl
@[simp] theorem advanceStage_remaining : (advanceStage k c).remaining = c.remaining := by unfold advanceStage; split <;> rfl
@[simp] theorem advanceStage_stage :
    (advanceStage k c).stage = if c.remaining[k] = 0 then Stage.ofIndex (k + 1) else c.stage := by
  unfold advanceStage; split <;> rfl
@[simp] theorem advanceStage_dataPos : (advanceStage k c).dataPos = c.dataPos := by unfold advanceStage; split <;> rfl
@[simp] theorem advanceStage_bitPos : (advanceStage k c).bitPos = c.bitPos := by unfold advanceStage; split <;> rfl
@[simp] theorem advanceStage_sampleNum : (advanceStage k c).sampleNum = c.sampleNum := by unfold advanceStage; split <;> rfl
@[simp] theorem advanceStage_attnSampleNum : (advanceStage k c).attnSampleNum = c.attnSampleNum := by
  unfold advanceStage; split <;> rfl
@[simp] theorem advanceStage_chunk : (advanceStage k c).chunk = c.chunk := by unfold advanceStage; split <;> rfl
end context

/-! ### The memories: a read after a write -/

/-- `CHUNK` read after a slot is stored: the slot holds the sample, every other slot what it held (R163, R168). -/
theorem storeSample_getElem (i : Nat) (v : Sample) (c : Context) (j : Fin 4096) :
    (storeSample i v c).chunk[j] = if i = j.val then v else c.chunk[j] := by
  simp [storeSample, Vector.getElem_setIfInBounds]

/-- A counter above 0 goes down by one (R164). -/
theorem countDown_of_ne {free n : BitVec 32} (h : n ≠ 0) : countDown free n = n - 1 := if_neg h
@[simp] theorem countDown_zero (free : BitVec 32) : countDown free 0 = free := by simp [countDown]

/-- A counter below its last value goes up by one (R142). -/
theorem countUp_of_lt {free n : BitVec 32} (h : n.toNat + 1 < 2 ^ 32) : countUp free n = n + 1 := if_pos h
theorem countUp_of_last {free n : BitVec 32} (h : n.toNat + 1 = 2 ^ 32) : countUp free n = free :=
  if_neg (by omega)

/-- `REMAINING` read after a decrement: one counter is counted down, the others hold (R164). -/
theorem decrementRemaining_getElem (free : BitVec 32) (k i : Fin 14) (c : Context) :
    (decrementRemaining free k c).remaining[i] = if k = i then countDown free c.remaining[k] else c.remaining[i] := by
  simp [decrementRemaining, Vector.getElem_set, Fin.ext_iff]

/-- A byte of the header buffer: the byte string where it reaches, 0 after it (R102). -/
@[simp] theorem encBuffer_getElem (bytes : List Byte) (i : Fin 268) : (encBuffer bytes)[i] = bytes.getD i 0 := by
  simp [encBuffer]

/-! ### Stage codes -/

@[simp] theorem Stage.ofIndex_index (st : Stage) : Stage.ofIndex st.index = st := by cases st <;> rfl

theorem Stage.index_le (st : Stage) : st.index ≤ 14 := by cases st <;> decide

theorem Stage.index_ofIndex {k : Nat} (h : k ≤ 14) : (Stage.ofIndex k).index = k := by
  interval_cases k <;> rfl

theorem Stage.index_inj {a b : Stage} (h : a.index = b.index) : a = b := by
  rw [← Stage.ofIndex_index a, h, Stage.ofIndex_index]

@[simp] theorem Stage.index_eq_14 (st : Stage) : st.index = 14 ↔ st = .done := by cases st <;> decide

theorem Stage.live_eq_some {st : Stage} {k : Fin 14} : st.live = some k ↔ st.index = k.val := by
  unfold Stage.live
  split
  · simp [Fin.ext_iff]
  · have := k.isLt
    simp only [reduceCtorEq, false_iff]
    omega

theorem Stage.live_eq_none {st : Stage} : st.live = none ↔ st = .done := by cases st <;> decide

end Sys2Proof.Machine
end

