-- ==== Sys2Proof/Laws/Commands.lean ====
section
/-! SUPPORT. What the shared operations and the commands can do, said once: provers cite these and need not unfold. -/

namespace Sys2Proof.Machine

theorem unlessFaulted_faulted {s : State} (command : State → State) (h : s.fault = true) :
    unlessFaulted command s = s := by simp [unlessFaulted, h]

theorem unlessFaulted_clear {s : State} (command : State → State) (h : s.fault = false) :
    unlessFaulted command s = command s := by simp [unlessFaulted, h]

/-- A delivered next state comes from a micro-operation that returned a sample. -/
theorem deliver_next {s t : State} {r : Except Fault (Sample × Context)} (h : deliver s r = .next t) :
    ∃ v c, r = .ok (v, c) ∧ t = { s with ctx := c, synth := .emitted v } := by
  rcases r with f | ⟨v, c⟩
  · simp [deliver] at h
  · exact ⟨v, c, rfl, by simpa [deliver] using h.symm⟩

/-! ### CONFIGURE -/

/-- What `CONFIGURE` does on a core that is not faulted: one of the two faults, or the whole effect. -/
theorem configure_cases (s : State) :
    (countLocations Config.locEndMarker s.header.loc = 0 ∧ configure s = faultEntry .noLocation s) ∨
    (countLocations Config.locEndMarker s.header.loc ≠ 0 ∧ s.header.attnSeconds = 0 ∧
      configure s = faultEntry .zeroAttn s) ∨
    (countLocations Config.locEndMarker s.header.loc ≠ 0 ∧ s.header.attnSeconds ≠ 0 ∧
      configure s = markConfigured
        { s with ctx := configuredContext Config.startCodeDash s.header (countLocations Config.locEndMarker s.header.loc) }) := by
  unfold configure
  dsimp only
  by_cases h1 : countLocations Config.locEndMarker s.header.loc = 0
  · exact .inl ⟨h1, by rw [if_pos h1]⟩
  · by_cases h2 : s.header.attnSeconds = 0
    · exact .inr (.inl ⟨h1, h2, by rw [if_neg h1, if_pos h2]⟩)
    · exact .inr (.inr ⟨h1, h2, by rw [if_neg h1, if_neg h2]⟩)

theorem countLocations_le (marker : Vector Byte 6) (loc : Vector (Vector Byte 6) 31) : countLocations marker loc ≤ 31 := by
  unfold countLocations
  exact List.findIdx_le_length.trans (by simp)

@[simp] theorem prefixBytes_length (dash : Bool) : (prefixBytes dash).length = 20 + dash.toNat := by cases dash <;> rfl

@[simp] theorem appendField_length {w : Nat} (buf : List Byte) (field : Vector Byte w) :
    (appendField buf field).length = buf.length + w + 1 := by simp [appendField, Nat.add_assoc]

@[simp] theorem plusOverwrite_length (buf : List Byte) : (plusOverwrite buf).length = buf.length := by simp [plusOverwrite]

theorem foldl_appendField_length {w : Nat} (fields : List (Vector Byte w)) (buf : List Byte) :
    (fields.foldl appendField buf).length = buf.length + (w + 1) * fields.length := by
  induction fields generalizing buf with
  | nil => simp
  | cons f fs ih => simp only [List.foldl_cons, ih, appendField_length, List.length_cons]; ring

/-- The length of the encoded header (R109, R116). -/
theorem encodeHeader_length (dash : Bool) (h : AlertHeader) {n : Nat} (hn : n ≤ 31) :
    (encodeHeader dash h n).length = 50 + 7 * n + dash.toNat := by
  unfold encodeHeader
  simp only [appendField_length, plusOverwrite_length, foldl_appendField_length, prefixBytes_length, List.length_take,
    Vector.length_toList]
  rw [Nat.min_eq_left hn]
  omega

/-- Every budget fits its 32-bit counter (R11, R110). -/
theorem budget_lt {encLen secs : Nat} (hl : encLen ≤ 268) (hs : secs ≤ 255) (k : Fin 14) :
    budget encLen secs k < 2 ^ 32 := by
  unfold budget Config.samplesPerBit Config.eomLen Config.sampleRate Config.silenceSeconds
  split <;> omega

/-- Every budget is positive (R115, R164). -/
theorem budget_pos {encLen secs : Nat} (hl : 0 < encLen) (hs : 0 < secs) (k : Fin 14) : 0 < budget encLen secs k := by
  unfold budget Config.samplesPerBit Config.eomLen Config.sampleRate Config.silenceSeconds
  split <;> omega

/-! ### GENERATE_CHUNK -/

/-- What `GENERATE_CHUNK` can do: nothing while faulted, one of its two faults, or the slot loop. -/
theorem execGenerateChunk_cases (s : State) :
    (s.fault = true ∧ execGenerateChunk s = .next s) ∨
    (s.fault = false ∧ s.configured = false ∧ execGenerateChunk s = .next (faultEntry .noContext s)) ∨
    (s.fault = false ∧ s.configured = true ∧ s.ctx.stage = .done ∧
      execGenerateChunk s = .next (faultEntry .terminalStage s)) ∨
    (s.fault = false ∧ s.configured = true ∧ s.ctx.stage ≠ .done ∧ execGenerateChunk s = fillChunk s) := by
  unfold execGenerateChunk
  cases s.fault <;> cases s.configured <;> by_cases h : s.ctx.stage = .done <;> simp [h]

theorem fillChunk_next {s t : State} (h : fillChunk s = .next t) :
    ∃ l, runSlots 4096 ⟨s.ctx, 0, s.draws⟩ = .ok l ∧
      t = { s with ctx := l.ctx, count := BitVec.ofNat 13 l.slot, draws := l.draws } := by
  unfold fillChunk Config.chunkCap at h
  split at h
  · simp at h
  · rename_i l heq
    exact ⟨l, heq, by simpa using h.symm⟩

/-- What a slot step does (R162 to R165): its micro-operation returned `v`, and then store, decrement and advance. -/
theorem slotStep_ok {draw i : Nat} {k : Fin 14} {c c' : Context} (h : slotStep draw i k c = .ok c') :
    ∃ v d, runSynth (Config.freeAttnSampleNum draw) schedule[k] c = .ok (v, d) ∧
      c' = advanceStage k (decrementRemaining (Config.freeRemaining draw) k (storeSample i v d)) := by
  unfold slotStep at h
  split at h
  · simp at h
  · rename_i v d heq
    exact ⟨v, d, heq, by simpa using h.symm⟩

/-- The slot loop by cases: out of fuel or at `DONE` it stops where it is; otherwise one slot step and the rest. -/
theorem runSlots_ok {fuel : Nat} {l m : SlotLoop} (h : runSlots fuel l = .ok m) :
    (m = l ∧ (fuel = 0 ∨ l.ctx.stage = .done)) ∨
    ∃ f k c, fuel = f + 1 ∧ l.ctx.stage.live = some k ∧ slotStep l.draws l.slot k l.ctx = .ok c ∧
      runSlots f ⟨c, l.slot + 1, l.draws + slotDraws k l.ctx⟩ = .ok m := by
  cases fuel with
  | zero => simp only [runSlots, Except.ok.injEq] at h; exact .inl ⟨h.symm, .inl rfl⟩
  | succ f =>
    unfold runSlots at h
    split at h
    · rename_i hl
      simp only [Except.ok.injEq] at h
      exact .inl ⟨h.symm, .inr (Stage.live_eq_none.mp hl)⟩
    · rename_i k hl
      split at h
      · simp at h
      · rename_i c hs
        exact .inr ⟨f, k, c, rfl, hl, hs, h⟩

/-! ### Free values (log entry 19) -/

/-- Where neither counter stands at its limit a slot step draws nothing. -/
theorem slotDraws_eq_zero {k : Fin 14} {c : Context} (hr : c.remaining[k] ≠ 0)
    (ha : schedule[k] = 2 → c.attnSampleNum.toNat + 1 < 2 ^ 32) : slotDraws k c = 0 := by
  unfold slotDraws attnDraws
  rw [if_neg hr]
  split
  · rename_i h; rw [if_pos (ha h)]
  · rfl

/-! ### What the micro-operations leave unchanged (R40) -/

/-- The registers no micro-operation writes. -/
structure SameButSubState (c d : Context) : Prop where
  encBytes : d.encBytes = c.encBytes
  encLen : d.encLen = c.encLen
  remaining : d.remaining = c.remaining
  stage : d.stage = c.stage
  chunk : d.chunk = c.chunk

theorem advanceAfsk_same (len : Nat) (c : Context) :
    SameButSubState c (advanceAfsk len c) ∧ (advanceAfsk len c).attnSampleNum = c.attnSampleNum := by
  unfold advanceAfsk
  split_ifs <;> exact ⟨⟨rfl, rfl, rfl, rfl, rfl⟩, rfl⟩

theorem emitAfsk_ok {n : Nat} {data : Vector Byte n} {len : Nat} {c d : Context} {v : Sample}
    (h : emitAfsk data len c = .ok (v, d)) :
    d = advanceAfsk len c ∧ ∃ b, data[c.dataPos.toNat]? = some b ∧
      afskSample sin32 (dataBit b c.bitPos) c.sampleNum.toNat = some v := by
  unfold emitAfsk at h
  split at h
  · simp at h
  · rename_i b hb
    split at h
    · simp at h
    · rename_i w hw
      simp only [Except.ok.injEq, Prod.mk.injEq] at h
      exact ⟨h.2.symm, b, hb, h.1 ▸ hw⟩

/-- The sample always exists (R125): an AFSK micro-operation whose byte exists returns. -/
theorem emitAfsk_returns {n : Nat} {data : Vector Byte n} (len : Nat) {c : Context} {b : Byte}
    (hb : data[c.dataPos.toNat]? = some b) :
    ∃ v, afskSample sin32 (dataBit b c.bitPos) c.sampleNum.toNat = some v ∧
      emitAfsk data len c = .ok (v, advanceAfsk len c) := by
  obtain ⟨v, hv⟩ := afskSample_eq_some (dataBit b c.bitPos) (n := c.sampleNum.toNat)
    (lt_trans c.sampleNum.isLt (by decide))
  exact ⟨v, hv, by simp [emitAfsk, hb, hv]⟩

/-- The sample always exists (R146), so `EMIT_ATTN` always returns. -/
theorem emitAttn_returns (free : BitVec 32) (c : Context) :
    ∃ v, attnSample sin32 c.attnSampleNum.toNat = some v ∧
      emitAttn free c = .ok (v, { c with attnSampleNum := countUp free c.attnSampleNum }) := by
  obtain ⟨v, hv⟩ := attnSample_eq_some (n := c.attnSampleNum.toNat) c.attnSampleNum.isLt
  exact ⟨v, hv, by unfold emitAttn; rw [hv]⟩

/-- What `EMIT_ATTN` does, in every state (R140 to R142, log entry 19). -/
theorem execEmitAttn_next (s : State) :
    ∃ v, attnSample sin32 s.ctx.attnSampleNum.toNat = some v ∧ execEmitAttn s =
      .next { s with
        ctx := { s.ctx with attnSampleNum := countUp (Config.freeAttnSampleNum s.draws) s.ctx.attnSampleNum }
        synth := .emitted v
        draws := s.draws + attnDraws s.ctx } := by
  obtain ⟨v, hv, he⟩ := emitAttn_returns (Config.freeAttnSampleNum s.draws) s.ctx
  exact ⟨v, hv, by rw [execEmitAttn, he, deliver]⟩

theorem emitAttn_ok {free : BitVec 32} {c d : Context} {v : Sample} (h : emitAttn free c = .ok (v, d)) :
    attnSample sin32 c.attnSampleNum.toNat = some v ∧ d = { c with attnSampleNum := countUp free c.attnSampleNum } := by
  obtain ⟨w, hw, he⟩ := emitAttn_returns free c
  rw [he] at h
  simp only [Except.ok.injEq, Prod.mk.injEq] at h
  exact ⟨h.1 ▸ hw, h.2.symm⟩

theorem runSynth_same {free : BitVec 32} {w : Code} {c d : Context} {v : Sample} (h : runSynth free w c = .ok (v, d)) : SameButSubState c d := by
  unfold runSynth at h
  split at h
  · obtain ⟨rfl, -⟩ := emitAfsk_ok h
    exact (advanceAfsk_same _ _).1
  · obtain ⟨rfl, -⟩ := emitAfsk_ok h
    exact (advanceAfsk_same _ _).1
  · obtain ⟨-, rfl⟩ := emitAttn_ok h
    exact ⟨rfl, rfl, rfl, rfl, rfl⟩
  · simp only [emitSilence, Except.ok.injEq, Prod.mk.injEq] at h
    obtain ⟨-, rfl⟩ := h
    exact ⟨rfl, rfl, rfl, rfl, rfl⟩

/-! ### What a slot step and the slot loop leave unchanged -/

/-- The frame of a slot step: the encoded header, every slot but its own, every counter but its stage's; the stage stays or
becomes the next one (R163 to R165). -/
theorem slotStep_frame {draw i : Nat} {k : Fin 14} {c c' : Context} (h : slotStep draw i k c = .ok c') :
    c'.encBytes = c.encBytes ∧ c'.encLen = c.encLen ∧ (∀ j : Fin 4096, j.val ≠ i → c'.chunk[j] = c.chunk[j]) ∧
      (∀ l : Fin 14, l ≠ k → c'.remaining[l] = c.remaining[l]) ∧
      (c'.stage = c.stage ∨ c'.stage = Stage.ofIndex (k + 1)) := by
  obtain ⟨v, d, hrun, rfl⟩ := slotStep_ok h
  obtain ⟨he, hl, hr, hs, hc⟩ := runSynth_same hrun
  refine ⟨by simp [he], by simp [hl], fun j hj => ?_, fun l hlk => ?_, ?_⟩
  · rw [advanceStage_chunk, decrementRemaining_chunk, storeSample_getElem, if_neg (Ne.symm hj), hc]
  · rw [advanceStage_remaining, decrementRemaining_getElem, if_neg (Ne.symm hlk), storeSample_remaining, hr]
  · rw [advanceStage_stage]
    split
    · exact .inr rfl
    · exact .inl hs

/-- The frame of the slot loop: it writes the slots from the index it starts at up to the index it answers, no others, and never
the encoded header; the stage never goes back (R162, R165, R168). -/
theorem runSlots_frame {fuel : Nat} {l m : SlotLoop} (h : runSlots fuel l = .ok m) :
    l.slot ≤ m.slot ∧ m.slot ≤ l.slot + fuel ∧ m.ctx.encBytes = l.ctx.encBytes ∧ m.ctx.encLen = l.ctx.encLen ∧
      l.ctx.stage.index ≤ m.ctx.stage.index ∧ l.draws ≤ m.draws ∧
      ∀ j : Fin 4096, j.val < l.slot ∨ m.slot ≤ j.val → m.ctx.chunk[j] = l.ctx.chunk[j] := by
  induction fuel generalizing l with
  | zero =>
    obtain ⟨rfl, -⟩ | ⟨f, -, -, hf, -⟩ := runSlots_ok h
    · exact ⟨le_rfl, le_rfl, rfl, rfl, le_rfl, le_rfl, fun _ _ => rfl⟩
    · omega
  | succ f ih =>
    obtain ⟨rfl, -⟩ | ⟨f', k, c, hf, hlive, hstep, hrest⟩ := runSlots_ok h
    · exact ⟨le_rfl, by omega, rfl, rfl, le_rfl, le_rfl, fun _ _ => rfl⟩
    · obtain rfl : f = f' := by omega
      obtain ⟨h1, h2, h3, h4, h5, hd, h6⟩ := ih hrest
      obtain ⟨he, hl, hc, -, hst⟩ := slotStep_frame hstep
      have hk := Stage.live_eq_some.mp hlive
      dsimp only at h1 h2 h3 h4 h5 hd h6
      refine ⟨by omega, by omega, h3.trans he, h4.trans hl, le_trans ?_ h5, by omega, fun j hj => ?_⟩
      · rcases hst with hst | hst
        · rw [hst]
        · rw [hst, Stage.index_ofIndex (by have := k.isLt; omega)]; omega
      · rw [h6 j (by omega), hc j (by omega)]

/-- The one thing a micro-operation stops on: a data byte outside its memory (R64, log entry 8). -/
theorem runSynth_error {free : BitVec 32} {w : Code} {c : Context} {f : Fault} (h : runSynth free w c = .error f) :
    f = .dataIndexOutOfRange := by
  have afsk : ∀ {n : Nat} (data : Vector Byte n) (len : Nat), emitAfsk data len c = .error f → f = .dataIndexOutOfRange := by
    intro n data len he
    rcases hb : data[c.dataPos.toNat]? with - | b
    · simp only [emitAfsk, hb, Except.error.injEq] at he; exact he.symm
    · obtain ⟨v, -, hv⟩ := emitAfsk_returns len hb
      rw [hv] at he; simp at he
  unfold runSynth at h
  split at h
  · exact afsk _ _ h
  · exact afsk _ _ h
  · obtain ⟨v, -, hv⟩ := emitAttn_returns free c
    rw [hv] at h; simp at h
  · simp [emitSilence] at h

end Sys2Proof.Machine
end

