-- ==== Sys2Proof/Laws/PerInstr.lean ====
section
/-! SUPPORT. Statements about every instruction as syntax, one lemma per constructor. -/

namespace Sys2Proof.Laws.OneFormat

/-- The instruction is well formed in exactly one format (R70, R74): no word of the other format stands for it. -/
def Statement (i : Instr) : Prop := ∀ f : Format, i.wellFormed f = true ↔ f = i.format

theorem nop : Statement .nop := fun f => by cases f <;> decide
theorem configure : Statement .configure := fun f => by cases f <;> decide
theorem generateChunk : Statement .generateChunk := fun f => by cases f <;> decide
theorem reservedCmd3 : Statement .reservedCmd3 := fun f => by cases f <;> decide
theorem emitAfskHdr : Statement .emitAfskHdr := fun f => by cases f <;> decide
theorem emitAfskEom : Statement .emitAfskEom := fun f => by cases f <;> decide
theorem emitAttn : Statement .emitAttn := fun f => by cases f <;> decide
theorem emitSilence : Statement .emitSilence := fun f => by cases f <;> decide

end Sys2Proof.Laws.OneFormat
end

