-- ==== Sys2Proof/Laws/Sequencer.lean ====
section
/-! SUPPORT. One slot step of an alert, said once: from a place in the alert it emits that place's sample and leaves the context at
the next place. -/

namespace Sys2Proof.Machine

/-- The place after slot step `j` of stage `k`. -/
def nextStage (encLen secs k j : Nat) : Nat := if j + 1 < stageLen encLen secs k then k else k + 1
def nextSlot (encLen secs k j : Nat) : Nat := if j + 1 < stageLen encLen secs k then j + 1 else 0

theorem stageLen_live {encLen secs k : Nat} (hk : k < 14) : stageLen encLen secs k = budget encLen secs ⟨k, hk⟩ := by
  simp [stageLen, hk]

theorem headerLen_bounds {n : Nat} (h : 1 ≤ n ∧ n ≤ 31) : 57 ≤ headerLen n ∧ headerLen n ≤ 268 := by
  unfold headerLen
  have : Config.startCodeDash.toNat ≤ 1 := Bool.toNat_le _
  omega

/-- The four kinds of stage (R74): owner, and what the place's counters depend on. -/
theorem stage_kinds (k : Fin 14) :
    (schedule[k].toNat = 0 ∧ isAfskStage k.val = true ∧ k.val ≠ 6 ∧ isAfskStage (k.val + 1) = false ∧ k.val < 6) ∨
    (schedule[k].toNat = 1 ∧ isAfskStage k.val = true ∧ k.val ≠ 6 ∧ isAfskStage (k.val + 1) = false ∧ 6 < k.val) ∨
    (schedule[k].toNat = 2 ∧ isAfskStage k.val = false ∧ k.val = 6) ∨
    (schedule[k].toNat = 3 ∧ isAfskStage k.val = false ∧ k.val ≠ 6) := by
  revert k; decide

theorem budget_hdr {encLen secs : Nat} {k : Fin 14} (h : schedule[k].toNat = 0) : budget encLen secs k = 680 * encLen := by
  simp only [budget, h, Config.samplesPerBit]

theorem budget_eom {encLen secs : Nat} {k : Fin 14} (h : schedule[k].toNat = 1) : budget encLen secs k = 13600 := by
  simp only [budget, h, Config.samplesPerBit, Config.eomLen]

theorem budget_attn {encLen secs : Nat} {k : Fin 14} (h : schedule[k].toNat = 2) : budget encLen secs k = secs * 44100 := by
  simp only [budget, h, Config.sampleRate]

/-- The AFSK sub-state counts the slot steps of a pass and is cleared at its end (R126, R127). -/
theorem advanceAfsk_counts {len m : Nat} {c : Context} (hlen : len ≤ 512) (hm : m < 680 * len)
    (hd : c.dataPos.toNat = m / 680) (hb : c.bitPos.toNat = m % 680 / 85) (hs : c.sampleNum.toNat = m % 85) :
    let m' := if m + 1 < 680 * len then m + 1 else 0
    (advanceAfsk len c).dataPos.toNat = m' / 680 ∧ (advanceAfsk len c).bitPos.toNat = m' % 680 / 85 ∧
      (advanceAfsk len c).sampleNum.toNat = m' % 85 := by
  unfold advanceAfsk Config.samplesPerBit
  rw [hd, hb, hs]
  dsimp only
  by_cases h1 : m % 85 + 1 < 85
  · have : m + 1 < 680 * len := by omega
    rw [if_pos h1, if_pos this]
    refine ⟨by simp only [hd]; omega, by simp only [hb]; omega, ?_⟩
    simp only [BitVec.toNat_ofNat]
    omega
  · rw [if_neg h1]
    by_cases h2 : m % 680 / 85 + 1 < 8
    · have : m + 1 < 680 * len := by omega
      rw [if_pos h2, if_pos this]
      refine ⟨by simp only [hd]; omega, ?_, ?_⟩
      · simp only [BitVec.toNat_ofNat]; omega
      · simp only [BitVec.ofNat_eq_ofNat, BitVec.toNat_ofNat]; omega
    · rw [if_neg h2]
      by_cases h3 : m / 680 + 1 < len
      · have : m + 1 < 680 * len := by omega
        rw [if_pos h3, if_pos this]
        refine ⟨?_, ?_, ?_⟩ <;> simp only [BitVec.ofNat_eq_ofNat, BitVec.toNat_ofNat] <;> omega
      · have : ¬ m + 1 < 680 * len := by omega
        rw [if_neg h3, if_neg this]
        exact ⟨rfl, rfl, rfl⟩

/-- A burst's sample at the sub-state of slot step `j`. -/
theorem burstSample_eq {n : Nat} {data : Vector Byte n} {c : Context} {b : Byte} {j : Nat} {v : Sample}
    (hd : c.dataPos.toNat = j / 680) (hb : c.bitPos.toNat = j % 680 / 85) (hs : c.sampleNum.toNat = j % 85)
    (hbyte : data[c.dataPos.toNat]? = some b) (hv : afskSample sin32 (dataBit b c.bitPos) c.sampleNum.toNat = some v) :
    burstSample data j = some v := by
  unfold burstSample
  rw [← hd, hbyte, Option.bind_some, ← hb, ← hs]
  exact hv

/-- The micro-operation of a place returns the place's sample and leaves the counters of the next place. -/
theorem runSynth_alertAt {n secs k j : Nat} {c : Context} (free : BitVec 32) (hk : k < 14) (h : AlertAt n secs k j c) :
    ∃ v d, runSynth free schedule[(⟨k, hk⟩ : Fin 14)] c = .ok (v, d) ∧ stageSample c.encBytes ⟨k, hk⟩ j = some v ∧
      SameButSubState c d ∧
      d.dataPos.toNat = burstPos (nextStage (headerLen n) secs k j) (nextSlot (headerLen n) secs k j) / 680 ∧
      d.bitPos.toNat = burstPos (nextStage (headerLen n) secs k j) (nextSlot (headerLen n) secs k j) % 680 / 85 ∧
      d.sampleNum.toNat = burstPos (nextStage (headerLen n) secs k j) (nextSlot (headerLen n) secs k j) % 85 ∧
      d.attnSampleNum.toNat = attnPos secs (nextStage (headerLen n) secs k j) (nextSlot (headerLen n) secs k j) := by
  obtain ⟨hcodes, hsecs, hlen, hst, hoff, hrem, hdp, hbp, hsn, hat⟩ := h
  have hL := headerLen_bounds hcodes
  rw [stageLen_live hk] at hoff
  unfold nextStage nextSlot
  rw [stageLen_live hk]
  -- an AFSK stage over `data`
  have burst : ∀ {m len : Nat} (data : Vector Byte m), len ≤ m → len ≤ 512 → isAfskStage k = true →
      isAfskStage (k + 1) = false → k ≠ 6 →
      budget (headerLen n) secs ⟨k, hk⟩ = 680 * len →
      ∃ v, emitAfsk data len c = .ok (v, advanceAfsk len c) ∧ burstSample data j = some v ∧
        SameButSubState c (advanceAfsk len c) ∧
        (let k' := if j + 1 < budget (headerLen n) secs ⟨k, hk⟩ then k else k + 1
         let j' := if j + 1 < budget (headerLen n) secs ⟨k, hk⟩ then j + 1 else 0
         (advanceAfsk len c).dataPos.toNat = burstPos k' j' / 680 ∧
         (advanceAfsk len c).bitPos.toNat = burstPos k' j' % 680 / 85 ∧
         (advanceAfsk len c).sampleNum.toNat = burstPos k' j' % 85 ∧
         (advanceAfsk len c).attnSampleNum.toNat = attnPos secs k' j') := by
    intro m len data hm h512 hk1 hk2 h6 hbud
    rw [hbud] at hoff ⊢
    simp only [burstPos, hk1, if_true] at hdp hbp hsn
    have hbyte : data[c.dataPos.toNat]? = some (data[c.dataPos.toNat]'(by omega)) :=
      Vector.getElem?_eq_getElem _
    obtain ⟨v, hv, he⟩ := emitAfsk_returns len hbyte
    have hc := advanceAfsk_counts h512 hoff hdp hbp hsn
    refine ⟨v, he, burstSample_eq hdp hbp hsn hbyte hv, (advanceAfsk_same _ _).1, ?_⟩
    rw [(advanceAfsk_same len c).2, hat]
    dsimp only at hc ⊢
    by_cases hj : j + 1 < 680 * len
    · rw [if_pos hj] at hc ⊢
      rw [if_pos hj]
      simp only [burstPos, hk1, if_true]
      refine ⟨hc.1, hc.2.1, hc.2.2, ?_⟩
      simp [attnPos, h6]
    · rw [if_neg hj] at hc ⊢
      rw [if_neg hj]
      simp only [burstPos, hk2, Bool.false_eq_true, if_false]
      refine ⟨hc.1, hc.2.1, hc.2.2, ?_⟩
      unfold attnPos
      split_ifs <;> first | rfl | omega
  rcases stage_kinds ⟨k, hk⟩ with ⟨hw, h1, h2, h3, h4⟩ | ⟨hw, h1, h2, h3, h4⟩ | ⟨hw, h1, h2⟩ | ⟨hw, h1, h2⟩
  · obtain ⟨v, he, hs, hsame, hc⟩ := burst c.encBytes hL.2 (by omega) h1 h3 h2 (budget_hdr hw)
    refine ⟨v, _, ?_, ?_, hsame, hc⟩
    · rw [show runSynth free schedule[(⟨k, hk⟩ : Fin 14)] c = emitAfskHdr c by simp only [runSynth, hw], emitAfskHdr, hlen]
      exact he
    · simp only [stageSample, hw]; exact hs
  · obtain ⟨v, he, hs, hsame, hc⟩ := burst (len := 20) eomBytes le_rfl (by omega) h1 h3 h2 (budget_eom hw)
    refine ⟨v, _, ?_, ?_, hsame, hc⟩
    · rw [show runSynth free schedule[(⟨k, hk⟩ : Fin 14)] c = emitAfskEom c by simp only [runSynth, hw], emitAfskEom]
      exact he
    · simp only [stageSample, hw]; exact hs
  · obtain rfl : k = 6 := h2
    have hb := budget_attn (encLen := headerLen n) (secs := secs) hw
    rw [hb] at hoff ⊢
    simp only [attnPos, lt_irrefl, if_false, if_true] at hat
    obtain ⟨v, hv, he⟩ := emitAttn_returns free c
    rw [countUp_of_lt (by omega)] at he
    simp only [burstPos, h1, Bool.false_eq_true, if_false] at hdp hbp hsn
    refine ⟨v, { c with attnSampleNum := c.attnSampleNum + 1 }, ?_, ?_, ⟨rfl, rfl, rfl, rfl, rfl⟩, ?_, ?_, ?_, ?_⟩
    · rw [show runSynth free schedule[(⟨6, hk⟩ : Fin 14)] c = emitAttn free c by simp only [runSynth, hw]]
      exact he
    · simp only [stageSample, hw]; rw [← hat]; exact hv
    · split_ifs <;> simp [burstPos, isAfskStage, hdp]
    · split_ifs <;> simp [burstPos, isAfskStage, hbp]
    · split_ifs <;> simp [burstPos, isAfskStage, hsn]
    · have : (c.attnSampleNum + 1).toNat = j + 1 := by
        rw [BitVec.toNat_add, hat]; simp only [BitVec.ofNat_eq_ofNat, BitVec.toNat_ofNat]; omega
      simp only [this, attnPos, Config.sampleRate]
      split_ifs <;> omega
  · simp only [burstPos, h1, Bool.false_eq_true, if_false] at hdp hbp hsn
    refine ⟨0, c, ?_, ?_, ⟨rfl, rfl, rfl, rfl, rfl⟩, ?_, ?_, ?_, ?_⟩
    · simp only [runSynth, hw, emitSilence]
    · simp only [stageSample, hw]
    · rw [hdp]; split_ifs <;> simp [burstPos, h1]
    · rw [hbp]; split_ifs <;> simp [burstPos, h1]
    · rw [hsn]; split_ifs <;> simp [burstPos, h1]
    · rw [hat]
      simp only at h2
      unfold attnPos
      split_ifs <;> first | rfl | omega

/-- One slot step of an alert (R162 to R165, R171): from place (`k`, `j`) it stores that place's sample at its slot and leaves the
context at the next place. It never stops and draws no free value. -/
theorem slotStep_alertAt {n secs k j : Nat} {c : Context} (draw i : Nat) (hk : k < 14) (h : AlertAt n secs k j c) :
    ∃ v c', stageSample c.encBytes ⟨k, hk⟩ j = some v ∧ slotStep draw i ⟨k, hk⟩ c = .ok c' ∧ slotDraws ⟨k, hk⟩ c = 0 ∧
      c'.chunk = c.chunk.setIfInBounds i v ∧ c'.encBytes = c.encBytes ∧ c'.encLen = c.encLen ∧
      AlertAt n secs (nextStage (headerLen n) secs k j) (nextSlot (headerLen n) secs k j) c' := by
  obtain ⟨v, d, hrun, hv, hsame, hd, hb, hs, ha⟩ := runSynth_alertAt (Config.freeAttnSampleNum draw) hk h
  have hL := headerLen_bounds h.codes
  have hoff := h.offset
  rw [stageLen_live hk] at hoff
  have hrk := h.remaining ⟨k, hk⟩
  simp only [leftAt, lt_irrefl, if_false, if_true] at hrk
  have hne : c.remaining[(⟨k, hk⟩ : Fin 14)] ≠ 0 := by
    intro h0
    rw [h0] at hrk
    simp only [BitVec.ofNat_eq_ofNat, BitVec.toNat_ofNat] at hrk
    omega
  have hne' : d.remaining[(⟨k, hk⟩ : Fin 14)] ≠ 0 := by rw [hsame.remaining]; exact hne
  have hdec : (d.remaining[(⟨k, hk⟩ : Fin 14)] - 1).toNat = budget (headerLen n) secs ⟨k, hk⟩ - (j + 1) := by
    have hlt := budget_lt hL.2 h.seconds.2 ⟨k, hk⟩
    rw [hsame.remaining, BitVec.toNat_sub, hrk]
    simp only [BitVec.ofNat_eq_ofNat, BitVec.toNat_ofNat]
    omega
  refine ⟨v, advanceStage ⟨k, hk⟩ (decrementRemaining (Config.freeRemaining draw) ⟨k, hk⟩ (storeSample i v d)), hv, ?_, ?_, ?_, ?_,
    ?_, ?_⟩
  · simp only [slotStep, hrun]
  · refine slotDraws_eq_zero hne fun hw => ?_
    have hk6 : k = 6 := by
      rcases stage_kinds ⟨k, hk⟩ with ⟨h', -⟩ | ⟨h', -⟩ | ⟨-, -, h'⟩ | ⟨h', -⟩
      · rw [hw] at h'; exact absurd h' (by decide)
      · rw [hw] at h'; exact absurd h' (by decide)
      · exact h'
      · rw [hw] at h'; exact absurd h' (by decide)
    have hat := h.attn
    have hsecs := h.seconds
    subst hk6
    rw [budget_attn (by rw [hw]; rfl)] at hoff
    simp only [attnPos, lt_irrefl, if_false, if_true] at hat
    omega
  · simp [hsame.chunk]
  · simp [hsame.encBytes]
  · simp [hsame.encLen]
  · have hzero : (decrementRemaining (Config.freeRemaining draw) ⟨k, hk⟩ (storeSample i v d)).remaining[(⟨k, hk⟩ : Fin 14)] = 0 ↔
        ¬ j + 1 < stageLen (headerLen n) secs k := by
      rw [decrementRemaining_getElem, if_pos rfl, storeSample_remaining, countDown_of_ne hne', stageLen_live hk, ← BitVec.toNat_inj, hdec]
      simp only [BitVec.ofNat_eq_ofNat, BitVec.toNat_ofNat]
      omega
    have hlen' := stageLen_live (encLen := headerLen n) (secs := secs) hk
    refine ⟨h.codes, h.seconds, ?_, ?_, ?_, ?_, ?_, ?_, ?_, ?_⟩
    · simp [hsame.encLen, h.encLen]
    · rw [advanceStage_stage]
      simp only [hzero, decrementRemaining_stage, storeSample_stage, hsame.stage]
      unfold nextStage
      split_ifs with hj
      · exact h.stage
      · exact Stage.index_ofIndex (show k + 1 ≤ 14 by omega)
    · unfold nextStage nextSlot
      split_ifs with hj
      · exact hj
      · unfold stageLen
        split
        · exact budget_pos (by omega) (by have := h.seconds.1; omega) _
        · exact Nat.one_pos
    · intro i'
      rw [advanceStage_remaining, decrementRemaining_getElem, storeSample_remaining]
      by_cases hi : (⟨k, hk⟩ : Fin 14) = i'
      · subst hi
        rw [if_pos rfl, countDown_of_ne hne', hdec]
        unfold leftAt nextStage nextSlot
        rw [hlen']
        split_ifs <;> simp_all
      · rw [if_neg hi, hsame.remaining, h.remaining i']
        have hi' : i'.val ≠ k := fun e => hi (Fin.ext e.symm)
        unfold leftAt nextStage nextSlot
        split_ifs <;> first | rfl | omega
    · simpa using hd
    · simpa using hb
    · simpa using hs
    · simpa using ha

/-- Where the alert stands, the slot loop's test agrees (R162). -/
theorem AlertAt.live {n secs k j : Nat} {c : Context} (h : AlertAt n secs k j c) (hk : k < 14) :
    c.stage.live = some ⟨k, hk⟩ := Stage.live_eq_some.mpr h.stage

/-- The slot loop of an alert (R162, R166, R175): it never stops and draws no free value, it leaves the context at some place of
the same alert, and it ends early only at `DONE`. -/
theorem runSlots_alertAt {n secs k j : Nat} (fuel : Nat) {l : SlotLoop} (h : AlertAt n secs k j l.ctx) :
    ∃ m k' j', runSlots fuel l = .ok m ∧ AlertAt n secs k' j' m.ctx ∧ m.draws = l.draws ∧
      (m.slot = l.slot + fuel ∨ m.ctx.stage = .done) := by
  induction fuel generalizing k j l with
  | zero => exact ⟨l, k, j, rfl, h, rfl, .inl rfl⟩
  | succ f ih =>
    rcases Nat.lt_or_ge k 14 with hk | hk
    · obtain ⟨v, c, -, hs, h0, -, -, -, h'⟩ := slotStep_alertAt l.draws l.slot hk h
      obtain ⟨m, k', j', hr, hm, hd, he⟩ := ih (l := ⟨c, l.slot + 1, l.draws + slotDraws ⟨k, hk⟩ l.ctx⟩) h'
      refine ⟨m, k', j', by simp only [runSlots, h.live hk, hs, hr], hm, by rw [hd, h0]; rfl, he.imp_left fun e => ?_⟩
      dsimp only at e
      omega
    · have hdone : l.ctx.stage = .done :=
        (Stage.index_eq_14 _).mp (by have := l.ctx.stage.index_le; have := h.stage; omega)
      exact ⟨l, k, j, by simp only [runSlots, Stage.live_eq_none.mpr hdone], h, rfl, .inr hdone⟩

end Sys2Proof.Machine
end

