-- ==== Sys2Proof/Tests/Slice0.lean ====
section
/-! SUPPORT. The model's own tests. Expected values are the spec's worked vectors (95_test_vectors.md) or worked by hand from a
numbered rule; each test names its source. -/

namespace Sys2Proof.Machine.Tests

-- One theorem after another: each kernel thread reserves a stack of its own, and many at once exhaust the memory limit.
set_option Elab.async false

/-! ### Decoding: words written out from R71 and R74 -/

theorem test_decode_nop : decode .cmdw [0b00000000] = .ok .nop := by decide
theorem test_decode_configure : decode .cmdw [0b00000001] = .ok .configure := by decide
theorem test_decode_generateChunk : decode .cmdw [0b00000010] = .ok .generateChunk := by decide
theorem test_decode_reservedCmd3 : decode .cmdw [0b00000011] = .ok .reservedCmd3 := by decide
theorem test_decode_emitAfskHdr : decode .schedule [0b00000000] = .ok .emitAfskHdr := by decide
theorem test_decode_emitAfskEom : decode .schedule [0b00000001] = .ok .emitAfskEom := by decide
theorem test_decode_emitAttn : decode .schedule [0b00000010] = .ok .emitAttn := by decide
theorem test_decode_emitSilence : decode .schedule [0b00000011] = .ok .emitSilence := by decide

/-! ### Well-formedness: an ill-formed term for each check (R70, R74) -/

theorem test_wellFormed_refuses_microOp_as_command : Instr.wellFormed .cmdw .emitAttn = false := by decide
theorem test_wellFormed_refuses_command_in_schedule : Instr.wellFormed .schedule .configure = false := by decide
theorem test_decode_refuses_high_bits : decode .cmdw [0b00000100] = .error .bitsOutsideWord := by decide
theorem test_decode_refuses_no_word : decode .schedule [] = .error .noWord := by decide
theorem test_decode_refuses_two_bytes : decode .cmdw [1, 0] = .error .extraBytes := by decide
theorem test_tableWord_eom : decodeTableWord 24 0x100001 = some .emitAfskEom := by decide

/-! ### binary32: V-AFSK-3, V-ATTN-2, V-ATTN-3 and the examples of R14 and R7 -/

theorem test_time_1 : sampleTime 1 = 0x37BE37C6 := by decide +kernel
theorem test_time_84 : sampleTime 84 = 0x3AF9A934 := by decide +kernel
theorem test_time_44100 : sampleTime 44100 = 0x3F800000 := by decide +kernel
theorem test_phase_mark_1 : phase 1 (toneFreq true) = 0x3E97F8C9 := by decide +kernel
theorem test_phase_mark_84 : phase 84 (toneFreq true) = 0x41C77688 := by decide +kernel
theorem test_phase_space_84 : phase 84 (toneFreq false) = 0x41959983 := by decide +kernel
theorem test_phase_attn_f1_352799 : phase 352799 Config.attnF1 = 0x47277C56 := by decide +kernel
theorem test_phase_attn_f2_1102499 : phase 1102499 Config.attnF2 = 0x48134314 := by decide +kernel
/-- V-AFSK-3, `n` = 1, bit 1: with `SIN32_CR(x)` = 0x3E95C008 the sample is 9584. -/
theorem test_afskSample_mark_1 : afskSample (fun x => if x = 0x3E97F8C9 then 0x3E95C008 else 0) true 1 = some 9584 := by
  decide +kernel
/-- V-AFSK-3, `n` = 84, bit 0: a negative sample. -/
theorem test_afskSample_space_84 : afskSample (fun _ => 0xBE189E60) false 84 = some (BitVec.ofInt 16 (-4884)) := by
  decide +kernel
/-- V-ATTN-2, `n` = 1102499. -/
theorem test_attnSample_1102499 :
    attnSample (fun x => if x = 0x4802D934 then 0xBDE952ED else 0xBE09B0E0) 1102499 = some (BitVec.ofInt 16 (-4070)) := by
  decide +kernel
/-- V-ATTN-3, `n` = 4829: an exact tie, away from zero. -/
theorem test_attnSample_tie_4829 :
    attnSample (fun x => if x = 0x4412B82B then 0x3F109752 else 0x3F308530) 4829 = some 20551 := by decide +kernel
theorem test_add_1102499 : f32Add 0xBDE952ED 0xBE09B0E0 = 0xBE7E5A56 := by decide +kernel
theorem test_toS16_tie_negative : toS16 0xC6EACB00 = some (BitVec.ofInt 16 (-30054)) := by decide +kernel
theorem test_toS16_out_of_range : toS16 0x47000000 = none := by decide +kernel
theorem test_mul_overflow : f32Mul 0x7F7FFFFF 0x40000000 = 0x7F800000 := by decide +kernel

/-! ### Headers: V-HDR-1, V-HDR-4, V-HDR-6, V-HDR-8 -/

/-- The input record of V-HDR-1 with its first location entry and the rest of the list given. -/
def wxr (code rest : Vector Byte 6) (secs : BitVec 8) : AlertHeader where
  org := #v[0x57, 0x58, 0x52]
  evt := #v[0x54, 0x4F, 0x52]
  loc := (Vector.replicate 31 rest).set 0 code
  vtp := #v[0x30, 0x30, 0x33, 0x30]
  otime := #v[0x30, 0x36, 0x36, 0x31, 0x38, 0x31, 0x35]
  call := #v[0x4B, 0x58, 0x59, 0x5A, 0x2F, 0x46, 0x4D, 0x20]
  attnSeconds := secs

/-- `048453`. -/
def county : Vector Byte 6 := #v[0x30, 0x34, 0x38, 0x34, 0x35, 0x33]
/-- Six zero bytes, a stand-in for the marker where the marker is an argument. -/
def zeros6 : Vector Byte 6 := Vector.replicate 6 0

/-- V-HDR-1, the byte dump. -/
theorem test_encodeHeader_one_location : encodeHeader false (wxr county zeros6 8) 1 =
    List.replicate 16 0xAB ++
    [0x5A, 0x43, 0x5A, 0x43, 0x57, 0x58, 0x52, 0x2D, 0x54, 0x4F, 0x52, 0x2D, 0x30, 0x34, 0x38, 0x34,
     0x35, 0x33, 0x2B, 0x30, 0x30, 0x33, 0x30, 0x2D, 0x30, 0x36, 0x36, 0x31, 0x38, 0x31, 0x35, 0x2D,
     0x4B, 0x58, 0x59, 0x5A, 0x2F, 0x46, 0x4D, 0x20, 0x2D] := by decide +kernel
/-- V-HDR-4: with 31 codes the plus is at offset 244 and the last dash at 266. -/
theorem test_encodeHeader_thirtyOne :
    (encodeHeader false (wxr county county 1) 31)[244]? = some 0x2B ∧
    (encodeHeader false (wxr county county 1) 31)[266]? = some 0x2D ∧
    (encodeHeader false (wxr county county 1) 31).length = 267 := by decide +kernel
/-- V-HDR-8: with the dash the plus is at offset 35 and the length is 58. -/
theorem test_encodeHeader_dash :
    (encodeHeader true (wxr county zeros6 8) 1)[20]? = some 0x2D ∧
    (encodeHeader true (wxr county zeros6 8) 1)[35]? = some 0x2B ∧
    (encodeHeader true (wxr county zeros6 8) 1).length = 58 := by decide +kernel
/-- V-HDR-1: the budgets. -/
theorem test_budgets_one_location : (List.finRange 14).map (budget 57 8) =
    [38760, 44100, 38760, 44100, 38760, 44100, 352800, 44100, 13600, 44100, 13600, 44100, 13600, 44100] := by decide +kernel
/-- V-HDR-7: `TOTAL` and `NCALLS` of the largest alert. -/
theorem test_total_largest : totalSamples 267 255 = 12139680 ∧ commandCount 12139680 = 2964 := by decide +kernel
/-- V-HDR-5: the list ends at its first marker. -/
theorem test_countLocations_first_marker :
    countLocations zeros6 ((Vector.replicate 31 zeros6).set 0 county |>.set 2 county) = 1 := by decide +kernel
theorem test_countLocations_full : countLocations zeros6 (Vector.replicate 31 county) = 31 := by decide +kernel

/-! ### The AFSK sub-state: V-AFSK-4, V-AFSK-5 -/

/-- A context at a sub-state. -/
def at3 (p : BitVec 9) (b : BitVec 3) (n : BitVec 7) : Context :=
  { clearedContext with dataPos := p, bitPos := b, sampleNum := n, encLen := 57 }
/-- The sub-state of a context. -/
def sub3 (c : Context) : Nat × Nat × Nat := (c.dataPos.toNat, c.bitPos.toNat, c.sampleNum.toNat)

theorem test_advance_sample : sub3 (advanceAfsk 57 (at3 0 0 84)) = (0, 1, 0) := by decide +kernel
theorem test_advance_byte : sub3 (advanceAfsk 57 (at3 0 7 84)) = (1, 0, 0) := by decide +kernel
theorem test_advance_end : sub3 (advanceAfsk 57 (at3 56 7 84)) = (0, 0, 0) := by decide +kernel
/-- V-AFSK-4: `-` is sent mark, space, mark, mark, space, mark, space, space. -/
theorem test_bit_order : (List.finRange 8).map (fun i => dataBit 0x2D (BitVec.ofNat 3 i)) =
    [true, false, true, true, false, true, false, false] := by decide
/-- V-MEM-1: 9584 is the bytes 70 25 and -6505 is 97 E6. -/
theorem test_chunkByte :
    let c := storeSample 84 (BitVec.ofInt 16 (-6505)) (storeSample 1 9584 clearedContext)
    chunkByte c 2 = some 0x70 ∧ chunkByte c 3 = some 0x25 ∧ chunkByte c 168 = some 0x97 ∧ chunkByte c 169 = some 0xE6 := by
  decide +kernel

/-! ### Small states -/

/-- A next state, seen through a check. -/
def nextAnd (o : Host.Outcome State Fault Refusal) (p : State → Bool) : Bool :=
  match o with
  | .next t => p t
  | _ => false

theorem nextAnd_exists {o : Host.Outcome State Fault Refusal} {p : State → Bool} (h : nextAnd o p = true) :
    ∃ t, o = .next t ∧ p t = true := by
  cases o with
  | next t => exact ⟨t, rfl, h⟩
  | fault f => simp [nextAnd] at h
  | refused r => simp [nextAnd] at h

/-- A core at rest with a given context, configured and not faulted; the location list is empty. -/
def core0 (c : Context) : State where
  header := wxr Config.locEndMarker Config.locEndMarker 8
  ctx := c
  configured := true
  fault := false
  faultCause := .none
  count := 0
  synth := .idle
  inbox := []
  draws := 0

/-- The context of an alert of one location code and 8 seconds with `left` samples of the last stage to come. -/
def lastStage (left : BitVec 32) (st : Stage) : Context where
  encBytes := encBuffer (prefixBytes false)
  encLen := 57
  remaining := (Vector.replicate 14 0).set 13 left
  stage := st
  dataPos := 0
  bitPos := 0
  sampleNum := 0
  attnSampleNum := 352800
  chunk := Vector.replicate 4096 0x1234

/-- Two silence samples before the end. -/
def nearEnd : State := core0 (lastStage 2 .sil7)
/-- A complete alert. -/
def atEnd : State := core0 (lastStage 0 .done)
/-- A faulted core. -/
def faulted : State := { nearEnd with fault := true, faultCause := .badCommand }

/-- The attention counter at its last value. -/
def lastCount : State := core0 { clearedContext with attnSampleNum := 0xFFFFFFFF }

theorem lastStage_remaining (left : BitVec 32) (st : Stage) : (lastStage left st).remaining[(13 : Fin 14)] = left := by
  simp [lastStage]
theorem slotStep_silence {draw i : Nat} {c : Context} : slotStep draw i 13 c =
    .ok (advanceStage 13 (decrementRemaining (Config.freeRemaining draw) 13 (storeSample i 0 c))) := rfl

/-! ### One instruction each -/

/-- V-CMD-1. -/
theorem test_nop : exec .nop nearEnd = .next nearEnd := rfl
/-- V-FLT-3. -/
theorem test_reserved : nextAnd (exec .reservedCmd3 nearEnd) (fun t => t.fault && t.faultCause.code == 3) = true := rfl
/-- V-FLT-1: the first command after reset. -/
theorem test_generate_no_context :
    nextAnd (exec .generateChunk State.reset) (fun t => t.fault && t.faultCause.code == 1) = true := rfl
/-- V-FLT-2. -/
theorem test_generate_terminal : nextAnd (exec .generateChunk atEnd) (fun t => t.fault && t.faultCause.code == 2) = true := by
  decide +kernel
/-- V-SEQ-7 in small: the last command writes two zeros, stops, counts 2 and leaves the tail. -/
theorem test_generate_last : nextAnd (exec .generateChunk nearEnd) (fun t =>
    t.count == 2 && t.ctx.stage == .done && t.ctx.remaining[13] == 0 &&
    t.ctx.chunk[0] == 0 && t.ctx.chunk[1] == 0 && t.ctx.chunk[2] == 0x1234 && !t.fault) = true := by decide +kernel
/-- V-FLT-7: sticky. -/
theorem test_configure_faulted : exec .configure faulted = .next faulted := rfl
/-- V-SIL-1. -/
theorem test_emitSilence : exec .emitSilence nearEnd = .next { nearEnd with synth := .emitted 0 } := rfl
/-- Rule R131: the first sample of a bit is 0 and the sample index becomes 1. -/
theorem test_emitAfskHdr_first : nextAnd (exec .emitAfskHdr nearEnd)
    (fun t => t.synth == .emitted 0 && sub3 t.ctx == (0, 0, 1)) = true := by decide +kernel
theorem test_emitAfskEom_first : nextAnd (exec .emitAfskEom nearEnd)
    (fun t => t.synth == .emitted 0 && sub3 t.ctx == (0, 0, 1)) = true := by decide +kernel
/-- Rule R146: the first attention sample is 0. -/
theorem test_emitAttn_first : nextAnd (exec .emitAttn (core0 clearedContext))
    (fun t => t.synth == .emitted 0 && t.ctx.attnSampleNum == 1) = true := by decide +kernel
/-- Rules R165, R170: a stage's last slot, then the first slot of the next stage, in one chunk. -/
theorem test_slots_cross_stage :
    let c := { lastStage 44100 .sil6 with remaining := (Vector.replicate 14 13600).set 11 1 }
    (match runSlots 2 ⟨c, 0, 5⟩ with
    | .ok ⟨d, m, n⟩ =>
      m == 2 && n == 5 && d.stage == .eom3 && d.remaining[11] == 0 && d.remaining[12] == 13599 && sub3 d == (0, 0, 1)
    | .error _ => false) = true := by decide +kernel

/-- Log entry 19: a silence slot step at counter 0 stores its sample and draws the counter's value. -/
theorem test_slotStep_counter_zero : ∃ d, slotStep 7 0 13 (lastStage 0 .sil7) = .ok d ∧
    d.remaining[(13 : Fin 14)] = Config.freeRemaining 7 ∧ d.chunk[(0 : Fin 4096)] = 0 :=
  ⟨_, slotStep_silence, by
    rw [advanceStage_remaining, decrementRemaining_getElem, if_pos rfl, storeSample_remaining, lastStage_remaining]
    exact countDown_zero _, by simp⟩
/-- Log entry 19: `EMIT_ATTN` at the last value of its counter runs on and draws once. -/
theorem test_emitAttn_last : ∃ t, exec .emitAttn lastCount = .next t ∧
    t.ctx.attnSampleNum = Config.freeAttnSampleNum 0 ∧ t.draws = 1 := by
  obtain ⟨v, -, h⟩ := execEmitAttn_next lastCount
  exact ⟨_, h, countUp_of_last (n := 0xFFFFFFFF) (by decide), rfl⟩

/-! ### The step, and words placed by the host -/

theorem test_fetch_nop : step (State.reset.withFetchWord 8 0) = .next State.reset := rfl
theorem test_fetch_generate : step (State.reset.withFetchWord 8 2) = .next (faultEntry .noContext State.reset) := rfl
theorem test_fetch_eom : step (nearEnd.withFetchWord 24 1) = exec .emitAfskEom nearEnd := rfl

/-! ### Witnesses: states that meet the hypotheses of the statements -/

/-- A code that is not the marker. -/
def notMarker : Vector Byte 6 := Config.locEndMarker.set 0 (Config.locEndMarker[0] ^^^ 1)

theorem notMarker_ne : notMarker ≠ Config.locEndMarker := by
  intro h
  have h0 := congrArg (fun v : Vector Byte 6 => v[0]) h
  simp only [notMarker, Vector.getElem_set_self] at h0
  have h1 : Config.locEndMarker[0] ^^^ Config.locEndMarker[0] ^^^ 1 = (0 : Byte) := by
    rw [BitVec.xor_assoc, h0, BitVec.xor_self]; rfl
  rw [BitVec.xor_self, BitVec.zero_xor] at h1
  exact absurd h1 (by decide)

/-- A core ready to be configured: one location code, 8 seconds. -/
def ready : State := { nearEnd with header := wxr notMarker Config.locEndMarker 8 }
/-- The same with duration 0. -/
def untimed : State := { nearEnd with header := wxr notMarker Config.locEndMarker 0 }

theorem locations_one (h : AlertHeader) (hl : h.loc = (Vector.replicate 31 Config.locEndMarker).set 0 notMarker) :
    countLocations Config.locEndMarker h.loc = 1 := by
  rw [hl]
  simp [countLocations, Vector.toList_set, List.replicate, List.findIdx_cons, notMarker_ne]

theorem witness_configurable : ready.configurable :=
  ⟨rfl, by rw [show ready.locations = 1 from locations_one _ rfl]; decide, by decide⟩
theorem witness_untimed : untimed.fault = false ∧ untimed.locations ≠ 0 ∧ untimed.header.attnSeconds = 0 :=
  ⟨rfl, by rw [show untimed.locations = 1 from locations_one _ rfl]; decide, rfl⟩
theorem witness_no_location : nearEnd.fault = false ∧ nearEnd.locations = 0 := by
  refine ⟨rfl, ?_⟩
  simp [State.locations, nearEnd, core0, wxr, countLocations, List.replicate, List.findIdx_cons]
theorem witness_atRest : nearEnd.atRest ∧ nearEnd.inbox = [] := ⟨by simp [State.atRest, nearEnd, core0], rfl⟩
/-- Each kind of host action, standing first. -/
theorem witness_inbox (a : HostAction) : ∃ s : State, s.atRest ∧ s.inbox = a :: [] :=
  ⟨{ nearEnd with inbox := [a] }, by simp [State.atRest, nearEnd, core0], rfl⟩
theorem witness_handed : ({ nearEnd with synth := .dispatched 3 } : State).synth = .dispatched 3 := rfl
theorem witness_placed : decodeTableWord 8 2 = some .generateChunk ∧ decodeTableWord 24 1 = some .emitAfskEom := by decide
theorem witness_faulted : faulted.fault = true ∧ Instr.format .configure = .cmdw := ⟨rfl, rfl⟩
theorem witness_leaves_fault : step { faulted with inbox := [.reset] } = .next (resetEvent faulted) ∧
    (resetEvent faulted).fault = false := ⟨rfl, rfl⟩
theorem witness_no_context : State.reset.fault = false ∧ State.reset.configured = false := ⟨rfl, rfl⟩
theorem witness_terminal : atEnd.fault = false ∧ atEnd.configured = true ∧ atEnd.ctx.stage = .done := ⟨rfl, rfl, rfl⟩
/-- The flags' three clauses: a first `CONFIGURE` changes `CONFIGURED`, the reserved code the other two. -/
theorem witness_flags_change :
    (∃ t, exec .configure { ready with configured := false } = .next t ∧ t.configured = true) ∧
    exec .reservedCmd3 nearEnd = .next (faultEntry .badCommand nearEnd) ∧
    (faultEntry .badCommand nearEnd).fault ≠ nearEnd.fault ∧
    (faultEntry .badCommand nearEnd).faultCause ≠ nearEnd.faultCause := by
  refine ⟨⟨_, rfl, ?_⟩, rfl, by decide, by decide⟩
  rw [unlessFaulted_clear _ rfl]
  obtain ⟨h, -⟩ | ⟨-, h, -⟩ | ⟨-, -, h⟩ := configure_cases { ready with configured := false }
  · rw [locations_one _ rfl] at h; exact absurd h (by decide)
  · exact absurd h (by decide)
  · rw [h]; rfl
theorem witness_entries_after_marker :
    let s' := { ready with header := { ready.header with loc := ready.header.loc.set 2 county (by decide) } }
    s'.fault = false ∧ s'.header = { ready.header with loc := s'.header.loc } ∧
    (∀ k : Fin 31, k.val ≤ ready.locations → s'.header.loc[k] = ready.header.loc[k]) := by
  refine ⟨rfl, rfl, fun k hk => ?_⟩
  rw [show ready.locations = 1 from locations_one _ rfl] at hk
  show (ready.header.loc.set 2 county (by decide))[k.val] = ready.header.loc[k.val]
  exact Vector.getElem_set_ne (by decide) k.isLt (by omega)
/-- The least and the greatest number of location codes a header can have. -/
theorem witness_code_counts : ((1 : Nat) ≤ 1 ∧ 1 ≤ 31) ∧ ((1 : Nat) ≤ 31 ∧ 31 ≤ 31) := by decide
theorem witness_not_faulted : nearEnd.fault = false ∧ exec .reservedCmd3 nearEnd = .next (faultEntry .badCommand nearEnd) :=
  ⟨rfl, rfl⟩
theorem witness_same_header : ({ ready with ctx := clearedContext } : State).fault = false ∧
    ({ ready with ctx := clearedContext } : State).header = ready.header := ⟨rfl, rfl⟩
/-- Both clauses on the location list: an entry before the end, and the entry at the end. -/
theorem witness_location_clauses :
    (0 : Fin 31).val < countLocations Config.locEndMarker ready.header.loc ∧
    (1 : Fin 31).val = countLocations Config.locEndMarker ready.header.loc := by
  rw [locations_one _ rfl]; decide
/-- The last bytes of the two data memories and the last value of the counter that completes. -/
theorem witness_micro_boundaries :
    (at3 267 0 0).dataPos.toNat < 268 ∧ (at3 19 0 0).dataPos.toNat < 20 ∧
    ({ clearedContext with attnSampleNum := 0xFFFFFFFE } : Context).attnSampleNum.toNat + 1 < 2 ^ 32 := by decide
/-- The first places past them. -/
theorem witness_micro_limits :
    268 ≤ (at3 268 0 0).dataPos.toNat ∧ 20 ≤ (at3 20 0 0).dataPos.toNat ∧
    ({ clearedContext with attnSampleNum := 0xFFFFFFFF } : Context).attnSampleNum.toNat + 1 = 2 ^ 32 := by decide
theorem witness_counter_zero : schedule[(13 : Fin 14)] = 3 ∧ (lastStage 0 .sil7).remaining[(13 : Fin 14)] = 0 ∧
    (lastStage 0 .sil7).stage.live = some 13 := ⟨by decide, lastStage_remaining _ _, by decide⟩
/-- What an instruction stops on, and the instruction. -/
theorem witness_stop : exec .emitAfskEom (core0 (at3 20 0 0)) = .fault .dataIndexOutOfRange := rfl
theorem witness_first_sample : (clearedContext.dataPos.toNat < 20 ∧ clearedContext.sampleNum = 0) ∧
    clearedContext.attnSampleNum = 0 := by decide
/-- Bits 0 and 1 of the preamble byte are both marks, in the header buffer and in the EOM buffer. -/
theorem witness_equal_bits : nearEnd.ctx.encBytes[nearEnd.ctx.dataPos.toNat]? = some 0xAB ∧
    eomBytes[nearEnd.ctx.dataPos.toNat]? = some 0xAB ∧ (0xAB : Byte).getLsbD 0 = (0xAB : Byte).getLsbD 1 := by decide +kernel
theorem witness_burst_pass : (57 : Nat) ≤ 511 ∧ clearedContext.dataPos = 0 ∧ clearedContext.bitPos = 0 ∧
    clearedContext.sampleNum = 0 ∧ 38759 < 680 * 57 ∧ 38760 ≤ 680 * 57 := by decide
theorem witness_micro_next : Instr.format .emitSilence = .schedule ∧
    exec .emitSilence nearEnd = .next { nearEnd with synth := .emitted 0 } := ⟨rfl, rfl⟩
theorem witness_silence_slot : schedule[(13 : Fin 14)] = 3 ∧ nearEnd.ctx.remaining[(13 : Fin 14)] ≠ 0 ∧
    ∃ d, slotStep 0 0 13 nearEnd.ctx = .ok d := ⟨by decide, by decide +kernel, _, slotStep_silence⟩
theorem witness_slot_step : nearEnd.ctx.stage.live = some 13 ∧ nearEnd.ctx.remaining[(13 : Fin 14)] ≠ 0 ∧
    exec (decodeSchedule schedule[(13 : Fin 14)]) nearEnd = .next { nearEnd with synth := .emitted 0 } := by
  refine ⟨by decide, by decide +kernel, ?_⟩
  rw [show decodeSchedule schedule[(13 : Fin 14)] = .emitSilence by decide]
  rfl
theorem witness_stage_live : Stage.live .hdr1 = some 0 := by decide
theorem witness_generating : nearEnd.generating := ⟨rfl, rfl, by decide⟩
theorem witness_generate_next : ∃ t, exec .generateChunk nearEnd = .next t ∧ t.count.toNat ≤ (2 : Fin 4096).val := by
  obtain ⟨t, h, hp⟩ := nextAnd_exists (o := exec .generateChunk nearEnd) (p := fun t => t.count.toNat ≤ 2) (by decide +kernel)
  exact ⟨t, h, by simpa using hp⟩
/-- A command that passes its preconditions and draws no free value. -/
theorem witness_no_draw : nearEnd.generating ∧ ∃ t, exec .generateChunk nearEnd = .next t ∧ t.draws = nearEnd.draws := by
  obtain ⟨t, h, hp⟩ := nextAnd_exists (o := exec .generateChunk nearEnd) (p := fun t => t.draws = 0) (by decide +kernel)
  exact ⟨witness_generating, t, h, of_decide_eq_true hp⟩

theorem lastStage_alertAt : AlertAt 1 8 13 44098 (lastStage 2 .sil7) :=
  ⟨by decide, by decide, by decide, by decide, by decide +kernel, by decide +kernel, by decide, by decide, by decide, by decide⟩
theorem done_alertAt : AlertAt 1 8 14 0 (lastStage 0 .done) :=
  ⟨by decide, by decide, by decide, by decide, by decide +kernel, by decide +kernel, by decide, by decide, by decide, by decide⟩
theorem prefix_tail_zero : ∀ i : Fin 268, 57 ≤ i.val → (encBuffer (prefixBytes false))[i] = 0 := by decide +kernel
theorem lastStage_encWf (left : BitVec 32) (st : Stage) : EncWf (lastStage left st) :=
  ⟨by simp only [lastStage]; decide +kernel, prefix_tail_zero⟩
theorem witness_inv_generating : nearEnd.Inv :=
  ⟨by decide, witness_atRest.1, by decide, fun _ _ => ⟨lastStage_encWf _ _, _, _, _, _, lastStage_alertAt⟩⟩
theorem witness_inv_complete : atEnd.Inv ∧ atEnd.configured = true ∧ atEnd.complete :=
  ⟨⟨by decide, by simp [atEnd, core0], by decide, fun _ _ => ⟨lastStage_encWf _ _, _, _, _, _, done_alertAt⟩⟩, rfl, rfl, rfl⟩
theorem witness_step_from_inv : ∃ t, step nearEnd = .next t := ⟨nearEnd, rfl⟩
theorem witness_load_header : ([county] : List (Vector Byte 6)).length ≤ 31 ∧
    ∃ s : State, s.atRest ∧ s.inbox =
      loadHeader #v[0, 0, 0] #v[0, 0, 0] [county] #v[0, 0, 0, 0] #v[0, 0, 0, 0, 0, 0, 0] #v[0, 0, 0, 0, 0, 0, 0, 0] 8 ++ [.cmd 1] :=
  ⟨by decide, { nearEnd with inbox := _ }, by simp [State.atRest, nearEnd, core0], rfl⟩
/-- A tie of the rounding: 1/2 unit lies between 0 and 1 unit, and 0 is even. -/
theorem witness_rounding_tie : roundUnits 1 2 = 0 ∧ (1 : Nat) < f32Inf ∧
    ((patternUnits 0 * 2 : Nat) - (1 : Int)).natAbs = ((patternUnits 1 * 2 : Nat) - (1 : Int)).natAbs := by decide +kernel
/-- Operands of the arithmetic: the largest finite value and the least one, and a divisor that is not 0. -/
theorem witness_operands : f32Finite 0x7F7FFFFF = true ∧ f32Finite 0x00000001 = true ∧ f32Int 0x80000001 ≠ 0 := by decide +kernel
theorem witness_integer_boundary : 2 ^ 24 - 1 < 2 ^ 24 := by decide
/-- The largest value that converts, an exact tie, and the two ways a value does not convert. -/
theorem witness_conversion : (f32Finite 0x46FFFE00 = true ∧ f32Units 0x46FFFE00 = 32767 * 2 ^ 149) ∧
    f32Units 0x46A08D00 ≤ 32767 * 2 ^ 149 ∧ f32Finite 0x7F800000 = false ∧ 32767 * 2 ^ 149 < f32Units 0x46FFFE01 := by
  decide +kernel
theorem witness_admissible_sine : (fun _ => 0 : F32 → F32) 0 = 0 ∧
    ∀ x : F32, f32Finite x = true → f32Finite ((fun _ => 0 : F32 → F32) x) = true ∧
      f32Abs ((fun _ => 0 : F32 → F32) x) ≤ 0x3F800000 := ⟨rfl, fun _ _ => ⟨rfl, by show f32Abs 0 ≤ _; decide⟩⟩

end Sys2Proof.Machine.Tests
end

section
/-! The EOM burst: its two runs of bytes, and its contents offset by offset. -/

namespace Sys2Proof.Machine

/-- R78: the burst is the preamble, followed by `"NNNN"`. -/
theorem eomBytes_eq_append_replicate :
    eomBytes = Vector.replicate 16 (0xAB : Byte) ++ Vector.replicate 4 (0x4E : Byte) := by decide

/-- Settles O34: an offset below 16 falls in the preamble, one from 16 to 19 in `"NNNN"`. -/
theorem eomBurstContents : Obligations.EomBurstContents := by
  unfold Obligations.EomBurstContents
  rw [eomBytes_eq_append_replicate]
  constructor
  · intro i preamble
    rw [Vector.getElem?_append_left preamble, Vector.getElem?_replicate, if_pos preamble]
  · intro i after_preamble in_burst
    have in_nnnn : i - 16 < 4 := by omega
    rw [Vector.getElem?_append_right after_preamble, Vector.getElem?_replicate, if_pos in_nnnn]

end Sys2Proof.Machine
end

section
/-! `CONFIGURE` on a core that does not fault, and `prefixBytes` at the start of its `ENC_BYTES` (R103). -/

namespace Sys2Proof.Machine

/-- `CONFIGURE` where nothing faults (R100): the core is configured, with the context of its own input record. -/
theorem State.configurable.exec_configure {s : State} (hs : s.configurable) :
    exec .configure s =
      .next (markConfigured { s with ctx := configuredContext Config.startCodeDash s.header s.locations }) := by
  obtain ⟨not_faulted, located, timed⟩ := hs
  have completes : exec .configure s = .next (configure s) :=
    congrArg Host.Outcome.next (unlessFaulted_clear configure not_faulted)
  obtain ⟨no_location, -⟩ | ⟨-, untimed, -⟩ | ⟨-, -, configured⟩ := configure_cases s
  · exact absurd no_location located
  · exact absurd untimed timed
  · rw [completes, configured]; rfl

/-! ### The writes after `prefixBytes` keep it -/

theorem prefix_appendField {w : Nat} (buf : List Byte) (field : Vector Byte w) : buf <+: appendField buf field := by
  rw [appendField, List.append_assoc]
  exact List.prefix_append ..

theorem prefix_foldl_appendField {w : Nat} (fields : List (Vector Byte w)) (buf : List Byte) :
    buf <+: fields.foldl appendField buf := by
  induction fields generalizing buf with
  | nil => exact List.prefix_rfl
  | cons field fields ih => exact (prefix_appendField buf field).trans (ih _)

/-- The plus overwrite writes the last byte only, so every shorter beginning of the buffer stands. -/
theorem prefix_plusOverwrite {p buf : List Byte} (kept : p <+: buf) (shorter : p.length < buf.length) :
    p <+: plusOverwrite buf := by
  obtain ⟨rest, rfl⟩ := kept
  rw [plusOverwrite, List.set_append_right _ _ (Nat.le_sub_one_of_lt shorter)]
  exact List.prefix_append ..

/-- R103: an encoded header begins with `prefixBytes`, whatever its fields hold. The plus overwrite spares them: two fields are
written in between. -/
theorem prefixBytes_prefix_encodeHeader (dash : Bool) (h : AlertHeader) (n : Nat) :
    prefixBytes dash <+: encodeHeader dash h n := by
  have before_plus : prefixBytes dash <+:
      (h.loc.toList.take n).foldl appendField (appendField (appendField (prefixBytes dash) h.org) h.evt) :=
    ((prefix_appendField _ h.org).trans (prefix_appendField _ h.evt)).trans (prefix_foldl_appendField _ _)
  have after_plus := prefix_plusOverwrite before_plus (by
    simp only [foldl_appendField_length, appendField_length]; omega)
  exact ((after_plus.trans (prefix_appendField _ h.vtp)).trans (prefix_appendField _ h.otime)).trans
    (prefix_appendField _ h.call)

/-- `ENC_BYTES` holds a byte string that fits it from index 0 on. -/
theorem prefix_encBuffer {bytes : List Byte} (fits : bytes.length ≤ 268) : bytes <+: (encBuffer bytes).toList := by
  rw [List.prefix_iff_getElem]
  refine ⟨by simpa using fits, fun i hi => ?_⟩
  simp [encBuffer, hi]

/-- R103, R109: the encoded header of at most 31 location codes fits `ENC_BYTES`, so `ENC_BYTES` begins as it does. -/
theorem configuredContext_prefix (dash : Bool) (h : AlertHeader) {n : Nat} (hn : n ≤ 31) :
    prefixBytes dash <+: (configuredContext dash h n).encBytes.toList := by
  have fits : (encodeHeader dash h n).length ≤ 268 := by
    have := Bool.toNat_le dash
    rw [encodeHeader_length dash h hn]; omega
  exact (prefixBytes_prefix_encodeHeader dash h n).trans (prefix_encBuffer fits)

/-- Settles O17: `prefixBytes` are 20 bytes, and `ENC_BYTES` of the context that `CONFIGURE` leaves begins with them. -/
theorem encodedHeaderBeginsWithThePrefix : Obligations.EncodedHeaderBeginsWithThePrefix := by
  unfold Obligations.EncodedHeaderBeginsWithThePrefix
  refine ⟨prefixBytes_length _, fun s hs => ⟨_, hs.exec_configure, ?_⟩⟩
  have starts := configuredContext_prefix Config.startCodeDash s.header (n := s.locations) (countLocations_le _ _)
  exact (List.prefix_iff_eq_take.mp starts).symm

end Sys2Proof.Machine
end

section
/-! `GENERATE_CHUNK` past its preconditions, and the `CHUNK` slots its slot loop does not reach (R168). -/

namespace Sys2Proof.Machine

/-- R160, R161: past the preconditions a `GENERATE_CHUNK` is its slot loop. -/
theorem State.generating.exec_generateChunk {s : State} (hs : s.generating) : exec .generateChunk s = fillChunk s := by
  obtain ⟨not_faulted, configured, live⟩ := hs
  obtain ⟨faulted, -⟩ | ⟨-, unconfigured, -⟩ | ⟨-, -, terminal, -⟩ | ⟨-, -, -, fills⟩ := execGenerateChunk_cases s
  · simp [not_faulted] at faulted
  · simp [configured] at unconfigured
  · exact absurd terminal live
  · exact fills

/-- R167: `COUNT` is the slot the loop ended at; its 13 bits hold every value up to 4096, so nothing is lost. -/
theorem fillChunk_next_count {s t : State} (h : fillChunk s = .next t) :
    ∃ l, runSlots 4096 ⟨s.ctx, 0, s.draws⟩ = .ok l ∧ t.ctx = l.ctx ∧ t.count.toNat = l.slot := by
  obtain ⟨l, loop, rfl⟩ := fillChunk_next h
  obtain ⟨-, at_most_cap, -⟩ := runSlots_frame loop
  dsimp only at at_most_cap
  exact ⟨l, loop, rfl, by rw [BitVec.toNat_ofNat, Nat.mod_eq_of_lt (by omega)]⟩

/-- Settles O40: the slot loop writes the slots below the one it ends at, and that one is `COUNT`. -/
theorem unfilledTailIsKept : Obligations.UnfilledTailIsKept := by
  unfold Obligations.UnfilledTailIsKept
  intro s t hs ht j past_count
  obtain ⟨l, loop, ctx, count⟩ := fillChunk_next_count (hs.exec_generateChunk ▸ ht)
  obtain ⟨-, -, -, -, -, -, tail_kept⟩ := runSlots_frame loop
  rw [ctx]
  exact tail_kept j (.inr (count ▸ past_count))

end Sys2Proof.Machine
end

section
/-! What an instruction and a step can do, said once for all of them: the micro-operations through the dispatch of a slot step,
the commands through the cases of their own. -/

namespace Sys2Proof.Machine

/-! ### The micro-operations -/

theorem code_cases : ∀ w : Code, w = 0 ∨ w = 1 ∨ w = 2 ∨ w = 3 := by decide

/-- The draws of a micro-operation: only `EMIT_ATTN` takes any (log entry 19). -/
def microDraws (w : Code) (c : Context) : Nat := if w = 2 then attnDraws c else 0

/-- R163: a micro-operation run on its own is the dispatch of a slot step on the context, its sample returned on the path. -/
theorem exec_decodeSchedule (w : Code) (s : State) :
    exec (decodeSchedule w) s =
      deliver { s with draws := s.draws + microDraws w s.ctx } (runSynth (Config.freeAttnSampleNum s.draws) w s.ctx) := by
  rcases code_cases w with rfl | rfl | rfl | rfl <;> rfl

theorem decodeSchedule_encode {i : Instr} (h : i.format = .schedule) : decodeSchedule (encode i) = i := by
  cases i with
  | emitAfskHdr | emitAfskEom | emitAttn | emitSilence => rfl
  | _ => exact absurd h (by decide)

theorem exec_micro {i : Instr} (h : i.format = .schedule) (s : State) :
    exec i s = deliver { s with draws := s.draws + microDraws (encode i) s.ctx }
      (runSynth (Config.freeAttnSampleNum s.draws) (encode i) s.ctx) := by
  rw [← exec_decodeSchedule, decodeSchedule_encode h]

/-- What a micro-operation that answers a next state did: it returned a sample and a context. -/
theorem exec_micro_next {i : Instr} {s t : State} (hi : i.format = .schedule) (h : exec i s = .next t) :
    ∃ v c, runSynth (Config.freeAttnSampleNum s.draws) (encode i) s.ctx = .ok (v, c) ∧
      t = { s with ctx := c, synth := .emitted v, draws := s.draws + microDraws (encode i) s.ctx } := by
  rw [exec_micro hi] at h
  exact deliver_next h

/-! ### The commands -/

@[simp] theorem faultEntered_faultEntry (cause : Cause) (s : State) : FaultEntered cause s (faultEntry cause s) :=
  ⟨rfl, rfl, rfl, rfl, rfl, rfl⟩

theorem exec_configure_of_not_faulted {s : State} (h : s.fault = false) : exec .configure s = .next (configure s) :=
  congrArg Host.Outcome.next (unlessFaulted_clear configure h)

theorem exec_reservedCmd3_of_not_faulted {s : State} (h : s.fault = false) :
    exec .reservedCmd3 s = .next (faultEntry .badCommand s) :=
  congrArg Host.Outcome.next (unlessFaulted_clear _ h)

/-- R183: while `FAULT` = 1 every command does nothing. -/
theorem exec_command_of_faulted {i : Instr} {s : State} (hi : i.format = .cmdw) (h : s.fault = true) :
    exec i s = .next s := by
  cases i with
  | nop => rfl
  | configure => exact congrArg Host.Outcome.next (unlessFaulted_faulted configure h)
  | generateChunk => exact if_pos h
  | reservedCmd3 => exact congrArg Host.Outcome.next (unlessFaulted_faulted _ h)
  | _ => exact absurd hi (by decide)

/-- What a command can do: nothing, one of the faults, the whole effect of `CONFIGURE`, or the slot loop. -/
theorem exec_command_cases (i : Instr) (s : State) (hi : i.format = .cmdw) :
    exec i s = .next s ∨
    (s.fault = false ∧ i ≠ .nop ∧ ∃ cause, cause ≠ .none ∧ exec i s = .next (faultEntry cause s)) ∨
    (i = .configure ∧ s.configurable) ∨
    (i = .generateChunk ∧ s.generating) := by
  rcases hf : s.fault with - | -
  case true => exact .inl (exec_command_of_faulted hi hf)
  case false =>
    cases i with
    | nop => exact .inl rfl
    | reservedCmd3 =>
      exact .inr (.inl ⟨rfl, by decide, .badCommand, by decide, exec_reservedCmd3_of_not_faulted hf⟩)
    | configure =>
      rw [exec_configure_of_not_faulted hf]
      obtain ⟨-, h⟩ | ⟨-, -, h⟩ | ⟨located, timed, -⟩ := configure_cases s
      · exact .inr (.inl ⟨rfl, by decide, .noLocation, by decide, by rw [h]⟩)
      · exact .inr (.inl ⟨rfl, by decide, .zeroAttn, by decide, by rw [h]⟩)
      · exact .inr (.inr (.inl ⟨rfl, hf, located, timed⟩))
    | generateChunk =>
      obtain ⟨h, -⟩ | ⟨-, -, h⟩ | ⟨-, -, -, h⟩ | ⟨-, hasContext, notDone, -⟩ := execGenerateChunk_cases s
      · simp [hf] at h
      · exact .inr (.inl ⟨rfl, by decide, .noContext, by decide, h⟩)
      · exact .inr (.inl ⟨rfl, by decide, .terminalStage, by decide, h⟩)
      · exact .inr (.inr (.inr ⟨rfl, hf, hasContext, notDone⟩))
    | _ => exact absurd hi (by decide)

/-- What any instruction that answers a next state can have done to the registers outside the context: nothing but to `COUNT` and
the model's own, one of the faults, or the flags of a `CONFIGURE`. -/
theorem exec_next_cases {i : Instr} {s t : State} (h : exec i s = .next t) :
    (∃ c n p d, t = { s with ctx := c, count := n, synth := p, draws := d }) ∨
    (s.fault = false ∧ i.format = .cmdw ∧ i ≠ .nop ∧ ∃ cause, cause ≠ .none ∧ t = faultEntry cause s) ∨
    (i = .configure ∧ ∃ c, t = markConfigured { s with ctx := c }) := by
  rcases hi : i.format with - | -
  case schedule =>
    obtain ⟨v, c, -, rfl⟩ := exec_micro_next hi h
    exact .inl ⟨_, _, _, _, rfl⟩
  case cmdw =>
    obtain h' | ⟨clear, notNop, cause, isCause, h'⟩ | ⟨rfl, hs⟩ | ⟨rfl, hs⟩ := exec_command_cases i s hi
    · obtain rfl : s = t := by simpa [h'] using h
      exact .inl ⟨_, _, _, _, rfl⟩
    · exact .inr (.inl ⟨clear, rfl, notNop, cause, isCause, by simpa [h'] using h.symm⟩)
    · rw [hs.exec_configure] at h
      exact .inr (.inr ⟨rfl, _, by simpa using h.symm⟩)
    · rw [hs.exec_generateChunk] at h
      obtain ⟨l, -, rfl⟩ := fillChunk_next h
      exact .inl ⟨_, _, _, _, rfl⟩

/-! ### The step -/

theorem step_of_dispatched {s : State} {w : Code} (h : s.synth = .dispatched w) :
    step s = exec (decodeSchedule w) { s with synth := .idle } := by simp only [step, h, synthStep]

theorem step_of_atRest {s : State} (h : s.atRest) : step s = hostStep s := by
  unfold step
  split
  · rename_i w hw
    exact absurd hw (h w)
  · rfl

theorem step_of_inbox_nil {s : State} (h : s.atRest) (hi : s.inbox = []) : step s = .next s := by
  rw [step_of_atRest h]
  simp only [hostStep, hi]

theorem step_of_inbox_cons {s : State} {a : HostAction} {rest : List HostAction} (h : s.atRest) (hi : s.inbox = a :: rest) :
    step s = hostAction a { s with inbox := rest } := by
  rw [step_of_atRest h]
  simp only [hostStep, hi]

/-- What a step can be: a handed micro-operation, the core at rest with nothing to do, or the host's next action. -/
theorem step_cases (s : State) :
    (∃ w, s.synth = .dispatched w ∧ step s = exec (decodeSchedule w) { s with synth := .idle }) ∨
    (s.atRest ∧ step s = .next s) ∨
    (s.atRest ∧ ∃ a rest, s.inbox = a :: rest ∧ step s = hostAction a { s with inbox := rest }) := by
  by_cases rest : s.atRest
  · rcases hi : s.inbox with - | ⟨a, queue⟩
    · exact .inr (.inl ⟨rest, step_of_inbox_nil rest hi⟩)
    · exact .inr (.inr ⟨rest, a, queue, rfl, step_of_inbox_cons rest hi⟩)
  · obtain ⟨w, hw⟩ : ∃ w, s.synth = .dispatched w := by simpa [State.atRest] using rest
    exact .inl ⟨w, hw, step_of_dispatched hw⟩

end Sys2Proof.Machine
end

section
/-! The invariant: `CONFIGURE` establishes it, the slot loop keeps it, and no step leaves it or stops in it. -/

namespace Sys2Proof.Machine

/-! ### The context `CONFIGURE` leaves -/

theorem headerLen_eq_length (h : AlertHeader) {n : Nat} (hn : n ≤ 31) :
    (encodeHeader Config.startCodeDash h n).length = headerLen n := encodeHeader_length _ h hn

/-- R109: `ENC_LEN` holds the length of the encoded header; its 9 bits hold every such length. -/
theorem configuredContext_encLen (h : AlertHeader) {n : Nat} (hn : 1 ≤ n ∧ n ≤ 31) :
    (configuredContext Config.startCodeDash h n).encLen.toNat = headerLen n := by
  have := headerLen_bounds hn
  simp only [configuredContext, headerLen_eq_length h hn.2, BitVec.toNat_ofNat]
  omega

/-- R110: `REMAINING` holds the budgets; 32 bits hold every one of them. -/
theorem configuredContext_remaining (h : AlertHeader) {n : Nat} (hn : 1 ≤ n ∧ n ≤ 31) (k : Fin 14) :
    (configuredContext Config.startCodeDash h n).remaining[k].toNat = budget (headerLen n) h.attnSeconds.toNat k := by
  have fits := budget_lt (headerLen_bounds hn).2 (Nat.le_of_lt_succ h.attnSeconds.isLt) k
  simpa [configuredContext, headerLen_eq_length h hn.2] using fits

/-- R102, R103: `ENC_BYTES` begins with `prefixBytes` and is 0 from `ENC_LEN` on. -/
theorem configuredContext_encWf (h : AlertHeader) {n : Nat} (hn : 1 ≤ n ∧ n ≤ 31) :
    EncWf (configuredContext Config.startCodeDash h n) where
  start := (List.prefix_iff_eq_take.mp (configuredContext_prefix _ h hn.2)).symm
  rest i past_end := by
    rw [configuredContext_encLen h hn, ← headerLen_eq_length h hn.2] at past_end
    exact (encBuffer_getElem _ i).trans (List.getD_eq_default _ _ past_end)

/-- R102 to R111: `CONFIGURE` leaves the context before the first slot step of an alert. -/
theorem configuredContext_alertAt (h : AlertHeader) {n : Nat} (hn : 1 ≤ n ∧ n ≤ 31) (timed : h.attnSeconds ≠ 0) :
    AlertAt n h.attnSeconds.toNat 0 0 (configuredContext Config.startCodeDash h n) := by
  have secs_pos : 1 ≤ h.attnSeconds.toNat :=
    Nat.one_le_iff_ne_zero.mpr fun zero => timed (BitVec.eq_of_toNat_eq zero)
  exact {
    codes := hn
    seconds := ⟨secs_pos, Nat.le_of_lt_succ h.attnSeconds.isLt⟩
    encLen := configuredContext_encLen h hn
    stage := rfl
    offset := by
      rw [stageLen_live (by decide)]
      exact budget_pos (by have := headerLen_bounds hn; omega) secs_pos _
    remaining := fun i => by
      rw [configuredContext_remaining h hn]
      simp [leftAt]
    dataPos := rfl
    bitPos := rfl
    sampleNum := rfl
    attn := rfl }

theorem configuredContext_inv (h : AlertHeader) {n : Nat} (hn : 1 ≤ n ∧ n ≤ 31) (timed : h.attnSeconds ≠ 0) :
    (configuredContext Config.startCodeDash h n).Inv :=
  ⟨configuredContext_encWf h hn, _, _, _, _, configuredContext_alertAt h hn timed⟩

theorem State.configurable.locations_bounds {s : State} (hs : s.configurable) : 1 ≤ s.locations ∧ s.locations ≤ 31 :=
  ⟨Nat.one_le_iff_ne_zero.mpr hs.located, countLocations_le _ _⟩

/-! ### The invariant, kept -/

theorem EncWf.congr {c d : Context} (h : EncWf c) (bytes : d.encBytes = c.encBytes) (len : d.encLen = c.encLen) : EncWf d :=
  ⟨by rw [bytes]; exact h.start, by rw [bytes, len]; exact h.rest⟩

/-- R162, R175: the slot loop of a whole command completes in the invariant and keeps it. -/
theorem fillChunk_inv {s : State} (hs : s.ctx.Inv) : ∃ t, fillChunk s = .next t ∧ t.ctx.Inv ∧ t.count.toNat ≤ 4096 := by
  obtain ⟨encWf, n, secs, k, j, place⟩ := hs
  obtain ⟨m, k', j', loop, place', -, -⟩ := runSlots_alertAt 4096 (l := ⟨s.ctx, 0, s.draws⟩) place
  have completes : fillChunk s = .next { s with ctx := m.ctx, count := BitVec.ofNat 13 m.slot, draws := m.draws } := by
    simp only [fillChunk, Config.chunkCap, loop]
  obtain ⟨m', loop', ctx', count'⟩ := fillChunk_next_count completes
  obtain ⟨-, at_most_cap, bytes, len, -⟩ := runSlots_frame loop'
  obtain rfl : m = m' := by simpa [loop] using loop'
  exact ⟨_, completes, ⟨encWf.congr bytes len, n, secs, k', j', place'⟩, by rw [count']; simpa using at_most_cap⟩

/-- A fault entry leaves a state of the invariant: it says nothing of the context there (R186). -/
theorem State.Inv.faultEntry {s : State} (hs : s.Inv) {cause : Cause} (isCause : cause ≠ .none) :
    (faultEntry cause s).Inv where
  flags := by simpa using isCause
  path := hs.path
  count _ clear := by simp at clear
  context _ clear := by simp at clear

/-- After a `RESET` nothing is said of the context either (R39). -/
theorem State.Inv.resetEvent {s : State} (hs : s.Inv) : (resetEvent s).Inv where
  flags := by simp
  path := hs.path
  count configured := by simp at configured
  context configured := by simp at configured

theorem State.Inv.markConfigured {s : State} (hs : s.Inv) {c : Context} (hc : c.Inv) :
    (markConfigured { s with ctx := c }).Inv where
  flags := hs.flags
  path := hs.path
  count _ _ := by simp
  context _ _ := hc

/-- In the invariant every command answers a next state, which meets it again. -/
theorem State.Inv.exec_command {s : State} (hs : s.Inv) {i : Instr} (hi : i.format = .cmdw) :
    ∃ t, exec i s = .next t ∧ t.Inv := by
  obtain h | ⟨-, -, cause, isCause, h⟩ | ⟨rfl, configurable⟩ | ⟨rfl, generating⟩ := exec_command_cases i s hi
  · exact ⟨s, h, hs⟩
  · exact ⟨_, h, hs.faultEntry isCause⟩
  · exact ⟨_, configurable.exec_configure,
      hs.markConfigured (configuredContext_inv s.header configurable.locations_bounds configurable.timed)⟩
  · obtain ⟨t, ht, ctx, count⟩ := fillChunk_inv (hs.context generating.hasContext generating.notFaulted)
    obtain ⟨m, -, rfl⟩ := fillChunk_next ht
    exact ⟨_, generating.exec_generateChunk.trans ht, ⟨hs.flags, hs.path, fun _ _ => count, fun _ _ => ctx⟩⟩

theorem decodeCmdw_format (w : Code) : (decodeCmdw w).format = .cmdw := by revert w; decide

/-- In the invariant every host action answers a next state, which meets it again. -/
theorem State.Inv.hostAction {s : State} (hs : s.Inv) (a : HostAction) : ∃ t, hostAction a s = .next t ∧ t.Inv := by
  cases a with
  | reset => exact ⟨_, rfl, hs.resetEvent⟩
  | write r v => exact ⟨_, rfl, ⟨hs.flags, hs.path, hs.count, hs.context⟩⟩
  | read r => exact ⟨_, rfl, hs⟩
  | cmd w => exact hs.exec_command (decodeCmdw_format w)

/-- One step from the invariant: it answers a next state, which meets the invariant again. -/
theorem State.Inv.step {s : State} (hs : s.Inv) : ∃ t, step s = .next t ∧ t.Inv := by
  obtain ⟨w, handed, -⟩ | ⟨-, h⟩ | ⟨-, a, rest, -, h⟩ := step_cases s
  · exact absurd handed (hs.path w)
  · exact ⟨s, h, hs⟩
  · rw [h]
    exact State.Inv.hostAction (s := { s with inbox := rest }) ⟨hs.flags, hs.path, hs.count, hs.context⟩ a

/-- Settles O48: the next state a step answers is the one the invariant was carried to. -/
theorem stepKeepsTheInvariant : Obligations.StepKeepsTheInvariant := by
  unfold Obligations.StepKeepsTheInvariant
  intro s t hs ht
  obtain ⟨u, hu, inv⟩ := hs.step
  obtain rfl : u = t := by simpa [hu] using ht
  exact inv

/-- Settles O49: the other half of the step lemma. -/
theorem invariantNeverStops : Obligations.InvariantNeverStops := by
  unfold Obligations.InvariantNeverStops
  intro s hs
  obtain ⟨t, ht, -⟩ := hs.step
  exact ⟨t, ht⟩

/-- Settles O47: the flags of the reset state are 0, so the invariant says nothing of its unspecified context (R39). -/
theorem resetMeetsTheInvariant : Obligations.ResetMeetsTheInvariant := by
  unfold Obligations.ResetMeetsTheInvariant
  exact {
    flags := by decide
    path := fun w => SynthPort.noConfusion
    count := fun configured => absurd configured (by decide)
    context := fun configured => absurd configured (by decide) }

end Sys2Proof.Machine
end

section
/-! The decoder of the 2-bit words, and the instruction a placed word makes the next step run. -/

namespace Sys2Proof.Machine

/-! ### Decode and encode -/

/-- Settles O1: each word is a literal, so the tables of R71 and R74 are read off. -/
theorem wordsDecodeToTheirInstruction : Obligations.WordsDecodeToTheirInstruction := by
  unfold Obligations.WordsDecodeToTheirInstruction
  decide

theorem decode_encodeBytes (i : Instr) : decode i.format (encodeBytes i) = .ok i := by cases i <;> rfl

theorem decodeWord_format_encode (f : Format) (w : Code) :
    (decodeWord f w).format = f ∧ encode (decodeWord f w) = w := by
  cases f <;> revert w <;> decide

theorem decode_singleton (f : Format) (b : Byte) :
    decode f [b] = if b.toNat < 4 then .ok (decodeWord f (b.setWidth 2)) else .error .bitsOutsideWord := rfl

/-- R70: exactly the one-byte strings with zeros above bit 1 decode. -/
theorem decode_eq_ok_iff {f : Format} {bytes : List Byte} {i : Instr} :
    decode f bytes = .ok i ↔ ∃ b, bytes = [b] ∧ b.toNat < 4 ∧ decodeWord f (b.setWidth 2) = i := by
  match bytes with
  | [] => simp [decode]
  | [b] => by_cases h : b.toNat < 4 <;> simp [decode_singleton, h]
  | _ :: _ :: _ => simp [decode]

/-- Settles O2: both ways round for each instruction and each word, and the byte strings that decode. -/
theorem decodeAndEncodeAgree : Obligations.DecodeAndEncodeAgree := by
  unfold Obligations.DecodeAndEncodeAgree
  refine ⟨decode_encodeBytes, decodeWord_format_encode, fun f bytes => ?_⟩
  constructor
  · rintro ⟨i, h⟩
    obtain ⟨b, one, low, -⟩ := decode_eq_ok_iff.mp h
    exact ⟨b, one, low⟩
  · rintro ⟨b, one, low⟩
    exact ⟨_, decode_eq_ok_iff.mpr ⟨b, one, low, rfl⟩⟩

/-! ### Table words (log entry 5) -/

/-- The dropped bit lies above the two bits of the word. -/
theorem dropTableLenBit_mod_four (w : Nat) : dropTableLenBit w % 4 = w % 4 := by
  unfold dropTableLenBit
  split <;> omega

/-- A byte below 4 holds the low two bits of any number it agrees with modulo 4. -/
theorem setWidth_ofNat_byte {v w : Nat} (h : v % 4 = w % 4) : (BitVec.ofNat 8 v).setWidth 2 = BitVec.ofNat 2 w := by
  apply BitVec.eq_of_toNat_eq
  simp only [BitVec.toNat_setWidth, BitVec.toNat_ofNat]
  omega

/-- A table word that decodes gives the instruction of its low two bits, in the format of its width. -/
theorem decodeTableWord_eq_some {nbits w : Nat} {i : Instr} (h : decodeTableWord nbits w = some i) :
    decodeWord (tableFormat nbits) (BitVec.ofNat 2 w) = i := by
  have of_decode {f : Format} {v : Nat} (low : v % 4 = w % 4)
      (hv : (if v < 256 then (decode f [BitVec.ofNat 8 v]).toOption else none) = some i) :
      decodeWord f (BitVec.ofNat 2 w) = i := by
    split at hv
    · rcases hd : decode f [BitVec.ofNat 8 v] with e | i'
      · simp [hd, Except.toOption] at hv
      · obtain ⟨b, one, -, word⟩ := decode_eq_ok_iff.mp hd
        obtain rfl : i' = i := by simpa [hd, Except.toOption] using hv
        rw [← setWidth_ofNat_byte low, ← word, List.singleton_inj.mp one]
    · simp at hv
  unfold decodeTableWord at h
  rcases hf : tableFormat nbits with - | - <;> simp only [hf] at h
  · exact of_decode rfl h
  · exact of_decode (dropTableLenBit_mod_four w) h

theorem withFetchWord_of_cmdw {s : State} {nbits w : Nat} {i : Instr} (h : decodeTableWord nbits w = some i)
    (hf : tableFormat nbits = .cmdw) :
    s.withFetchWord nbits w = { s with inbox := .cmd (BitVec.ofNat 2 w) :: s.inbox, synth := s.synth.undispatched } := by
  simp only [State.withFetchWord, h, hf]

theorem withFetchWord_of_schedule {s : State} {nbits w : Nat} {i : Instr} (h : decodeTableWord nbits w = some i)
    (hf : tableFormat nbits = .schedule) :
    s.withFetchWord nbits w = { s with synth := .dispatched (BitVec.ofNat 2 w) } := by
  simp only [State.withFetchWord, h, hf]

theorem SynthPort.undispatched_ne (p : SynthPort) (v : Code) : p.undispatched ≠ .dispatched v := by
  cases p <;> simp [SynthPort.undispatched]

/-- Settles O5: a command is placed first among the host's actions, a micro-operation on the path. -/
theorem placedWordRunsNext : Obligations.PlacedWordRunsNext := by
  unfold Obligations.PlacedWordRunsNext
  intro s nbits w i h
  have word := decodeTableWord_eq_some h
  rcases hf : tableFormat nbits with - | -
  case cmdw =>
    refine ⟨s.synth.undispatched, s.synth.undispatched_ne, ?_⟩
    rw [withFetchWord_of_cmdw h hf, ← word, hf]
    exact step_of_inbox_cons (a := .cmd _) (rest := s.inbox) s.synth.undispatched_ne rfl
  case schedule =>
    refine ⟨.idle, fun v => SynthPort.noConfusion, ?_⟩
    rw [withFetchWord_of_schedule h hf, step_of_dispatched rfl, ← word, hf]
    rfl

/-- Settles O4. -/
theorem stepRunsTheHandedMicroOperation : Obligations.StepRunsTheHandedMicroOperation := by
  unfold Obligations.StepRunsTheHandedMicroOperation
  intro s w
  exact step_of_dispatched

/-- Settles O3: the queue's head decides, and each kind of action is read off `hostAction`. -/
theorem stepTakesTheHostsNextAction : Obligations.StepTakesTheHostsNextAction := by
  unfold Obligations.StepTakesTheHostsNextAction
  intro s rest
  exact ⟨step_of_inbox_nil rest, fun queue =>
    ⟨fun w h => step_of_inbox_cons rest h, fun r v h => step_of_inbox_cons rest h,
      fun r h => step_of_inbox_cons rest h, fun h => step_of_inbox_cons rest h⟩⟩

end Sys2Proof.Machine
end

section
/-! Faults and the status flags: who raises a fault, who writes the flags, and how the fault state ends. -/

namespace Sys2Proof.Machine

/-- Settles O6: R72, in every state. -/
theorem nopChangesNothing : Obligations.NopChangesNothing := by
  unfold Obligations.NopChangesNothing
  exact fun _ => rfl

/-- Settles O7. -/
theorem reservedCodeRaisesBadCommand : Obligations.ReservedCodeRaisesBadCommand := by
  unfold Obligations.ReservedCodeRaisesBadCommand
  intro s clear
  exact ⟨_, exec_reservedCmd3_of_not_faulted clear, faultEntered_faultEntry _ s⟩

/-- Settles O8. -/
theorem faultedCoreIgnoresEveryCommand : Obligations.FaultedCoreIgnoresEveryCommand := by
  unfold Obligations.FaultedCoreIgnoresEveryCommand
  intro i s
  exact exec_command_of_faulted

/-- R161 (b), R185: the missing context is found before the stage is read. -/
theorem exec_generateChunk_of_not_configured {s : State} (clear : s.fault = false) (unconfigured : s.configured = false) :
    exec .generateChunk s = .next (faultEntry .noContext s) := by
  obtain ⟨h, -⟩ | ⟨-, -, h⟩ | ⟨-, h, -⟩ | ⟨-, h, -⟩ := execGenerateChunk_cases s
  · simp [clear] at h
  · exact h
  · simp [unconfigured] at h
  · simp [unconfigured] at h

/-- R161 (c). -/
theorem exec_generateChunk_of_done {s : State} (clear : s.fault = false) (configured : s.configured = true)
    (done : s.ctx.stage = .done) : exec .generateChunk s = .next (faultEntry .terminalStage s) := by
  obtain ⟨h, -⟩ | ⟨-, h, -⟩ | ⟨-, -, -, h⟩ | ⟨-, -, h, -⟩ := execGenerateChunk_cases s
  · simp [clear] at h
  · simp [configured] at h
  · exact h
  · exact absurd done h

/-- Settles O10. -/
theorem generateWithoutContextFaults : Obligations.GenerateWithoutContextFaults := by
  unfold Obligations.GenerateWithoutContextFaults
  intro s clear unconfigured
  exact ⟨_, exec_generateChunk_of_not_configured clear unconfigured, faultEntered_faultEntry _ s⟩

/-- Settles O11. -/
theorem generateAtTerminalStageFaults : Obligations.GenerateAtTerminalStageFaults := by
  unfold Obligations.GenerateAtTerminalStageFaults
  intro s clear configured done
  exact ⟨_, exec_generateChunk_of_done clear configured done, faultEntered_faultEntry _ s⟩

/-- Settles O12: `configure_cases` gives the two faults in the order of R185. -/
theorem configureFaultsInOrder : Obligations.ConfigureFaultsInOrder := by
  unfold Obligations.ConfigureFaultsInOrder
  intro s clear
  rw [exec_configure_of_not_faulted clear]
  obtain ⟨empty, h⟩ | ⟨located, untimed, h⟩ | ⟨located, timed, -⟩ := configure_cases s
  · exact ⟨fun _ => ⟨_, congrArg _ h, faultEntered_faultEntry _ s⟩, fun located => absurd empty located⟩
  · exact ⟨fun empty => absurd empty located, fun _ _ => ⟨_, congrArg _ h, faultEntered_faultEntry _ s⟩⟩
  · exact ⟨fun empty => absurd empty located, fun _ untimed => absurd untimed timed⟩

/-- Settles O14: by what an instruction can do outside the context. -/
theorem noInstructionWritesTheInputRecord : Obligations.NoInstructionWritesTheInputRecord := by
  unfold Obligations.NoInstructionWritesTheInputRecord
  intro i s t h
  obtain ⟨c, n, p, d, rfl⟩ | ⟨-, -, -, cause, -, rfl⟩ | ⟨-, c, rfl⟩ := exec_next_cases h <;> exact ⟨rfl, rfl⟩

/-- The commands but for `NOP`. -/
theorem command_cases {i : Instr} (command : i.format = .cmdw) (notNop : i ≠ .nop) :
    i = .configure ∨ i = .generateChunk ∨ i = .reservedCmd3 := by
  cases i <;> simp_all [Instr.format]

/-- Settles O13: an instruction keeps the flags, enters a fault from a core that has none, or is a completed `CONFIGURE`. -/
theorem statusFlagsChangeOnlyAsSaid : Obligations.StatusFlagsChangeOnlyAsSaid := by
  unfold Obligations.StatusFlagsChangeOnlyAsSaid
  intro i s t h
  obtain ⟨c, n, p, d, rfl⟩ | ⟨clear, command, notNop, cause, isCause, rfl⟩ | ⟨rfl, c, rfl⟩ := exec_next_cases h
  · exact ⟨absurd rfl, absurd rfl, absurd rfl⟩
  · exact ⟨absurd rfl, fun _ => ⟨rfl, isCause, command_cases command notNop⟩, fun _ => ⟨clear, rfl⟩⟩
  · exact ⟨fun _ => ⟨rfl, rfl⟩, absurd rfl, absurd rfl⟩

/-- R184: no instruction clears `FAULT`. -/
theorem exec_next_fault {i : Instr} {s t : State} (h : exec i s = .next t) (faulted : s.fault = true) : t.fault = true := by
  obtain ⟨c, n, p, d, rfl⟩ | ⟨clear, -⟩ | ⟨-, c, rfl⟩ := exec_next_cases h
  · exact faulted
  · simp [faulted] at clear
  · exact faulted

/-- R183, R184: no host action but `RESET` clears `FAULT`. -/
theorem hostAction_next_fault {a : HostAction} {s t : State} (h : hostAction a s = .next t) (faulted : s.fault = true)
    (notReset : a ≠ .reset) : t.fault = true := by
  cases a with
  | reset => exact absurd rfl notReset
  | write r v =>
    obtain rfl : { s with header := writeAh s.header r v } = t := by simpa [hostAction] using h
    exact faulted
  | read r =>
    obtain rfl : s = t := by simpa [hostAction] using h
    exact faulted
  | cmd w => exact exec_next_fault h faulted

/-- Settles O9: of all a step can be, only the `RESET` action leaves `FAULT` at 0. -/
theorem onlyResetLeavesTheFaultState : Obligations.OnlyResetLeavesTheFaultState := by
  unfold Obligations.OnlyResetLeavesTheFaultState
  intro s t h faulted clear
  obtain ⟨w, -, hs⟩ | ⟨-, hs⟩ | ⟨rest, a, queue, inbox, hs⟩ := step_cases s
  · have := exec_next_fault (hs.symm.trans h) faulted
    simp [clear] at this
  · obtain rfl : s = t := by simpa [hs] using h
    simp [clear] at faulted
  · by_cases isReset : a = .reset
    · exact ⟨rest, queue, isReset ▸ inbox⟩
    · have := hostAction_next_fault (hs.symm.trans h) faulted isReset
      simp [clear] at this

/-! ### RESET -/

/-- Settles O45: the reset state has nothing to do, and no context to generate from. -/
theorem resetStateIsIdle : Obligations.ResetStateIsIdle := by
  unfold Obligations.ResetStateIsIdle
  have idle : State.reset.atRest := fun _ => SynthPort.noConfusion
  exact ⟨rfl, rfl, rfl, step_of_inbox_nil idle rfl, _, exec_generateChunk_of_not_configured rfl rfl,
    faultEntered_faultEntry _ _⟩

/-- Settles O46. -/
theorem resetEventClearsTheFlags : Obligations.ResetEventClearsTheFlags := by
  unfold Obligations.ResetEventClearsTheFlags
  intro s queue rest inbox
  exact ⟨_, step_of_inbox_cons rest inbox, rfl, rfl, rfl, rfl⟩

end Sys2Proof.Machine
end

section
/-! The micro-operations: what each returns, where it leaves its sub-state, and what it leaves alone. -/

namespace Sys2Proof.Machine

/-! ### The AFSK synthesizer -/

/-- R126, R127: the three counters of the sub-state, each by its own rule; every other register is kept. -/
theorem advanceAfsk_advanced {len : Nat} (hlen : len ≤ 512) (c : Context) : AfskAdvanced len c (advanceAfsk len c) := by
  have sample_lt := c.sampleNum.isLt
  have bit_lt := c.bitPos.isLt
  unfold advanceAfsk Config.samplesPerBit
  split_ifs with sample bit byte
  · exact ⟨by rw [if_pos sample]; simp only [BitVec.toNat_ofNat]; omega, by rw [if_pos sample],
      by rw [if_pos (.inl sample)], rfl⟩
  · exact ⟨by rw [if_neg sample]; rfl, by rw [if_neg sample, if_pos bit]; simp only [BitVec.toNat_ofNat]; omega,
      by rw [if_pos (.inr bit)], rfl⟩
  · exact ⟨by rw [if_neg sample]; rfl, by rw [if_neg sample, if_neg bit]; rfl,
      by rw [if_neg (by tauto), if_pos byte]; simp only [BitVec.toNat_ofNat]; omega, rfl⟩
  · exact ⟨by rw [if_neg sample]; rfl, by rw [if_neg sample, if_neg bit]; rfl,
      by rw [if_neg (by tauto), if_neg byte]; rfl, rfl⟩

/-- R120: where its data byte exists `EMIT_AFSK_HDR` completes. -/
theorem exec_emitAfskHdr_of_byte {s : State} {b : Byte} (hb : s.ctx.encBytes[s.ctx.dataPos.toNat]? = some b) :
    ∃ v, afskSample sin32 (dataBit b s.ctx.bitPos) s.ctx.sampleNum.toNat = some v ∧
      exec .emitAfskHdr s = .next { s with ctx := advanceAfsk s.ctx.encLen.toNat s.ctx, synth := .emitted v } := by
  obtain ⟨v, hv, emits⟩ := emitAfsk_returns s.ctx.encLen.toNat hb
  exact ⟨v, hv, congrArg (deliver s) emits⟩

/-- R133: the same of `EMIT_AFSK_EOM`, over the EOM burst. -/
theorem exec_emitAfskEom_of_byte {s : State} {b : Byte} (hb : eomBytes[s.ctx.dataPos.toNat]? = some b) :
    ∃ v, afskSample sin32 (dataBit b s.ctx.bitPos) s.ctx.sampleNum.toNat = some v ∧
      exec .emitAfskEom s = .next { s with ctx := advanceAfsk 20 s.ctx, synth := .emitted v } := by
  obtain ⟨v, hv, emits⟩ := emitAfsk_returns 20 hb
  exact ⟨v, hv, congrArg (deliver s) emits⟩

/-- Settles O23. -/
theorem emitAfskHdrResult : Obligations.EmitAfskHdrResult := by
  unfold Obligations.EmitAfskHdrResult
  intro s inside
  have hb := Vector.getElem?_eq_getElem (xs := s.ctx.encBytes) inside
  obtain ⟨v, sample, completes⟩ := exec_emitAfskHdr_of_byte hb
  exact ⟨_, v, _, hb, sample, advanceAfsk_advanced (Nat.le_of_lt s.ctx.encLen.isLt) s.ctx, completes⟩

/-- Settles O24. -/
theorem emitAfskEomResult : Obligations.EmitAfskEomResult := by
  unfold Obligations.EmitAfskEomResult
  intro s inside
  have hb := Vector.getElem?_eq_getElem (xs := eomBytes) inside
  obtain ⟨v, sample, completes⟩ := exec_emitAfskEom_of_byte hb
  exact ⟨_, v, _, hb, sample, advanceAfsk_advanced (by decide) s.ctx, completes⟩

/-- Settles O30: both samples are `afskSample` at the same bit and the same index. -/
theorem afskSampleDependsOnBitAndIndex : Obligations.AfskSampleDependsOnBitAndIndex := by
  unfold Obligations.AfskSampleDependsOnBitAndIndex
  intro s s' b b' hb same_bit same_index
  obtain ⟨v, sample, completes⟩ := exec_emitAfskHdr_of_byte hb
  have same_sample {v'} (h : afskSample sin32 (dataBit b' s'.ctx.bitPos) s'.ctx.sampleNum.toNat = some v') : v' = v := by
    rw [dataBit, same_bit, same_index] at sample
    exact Option.some.inj (h.symm.trans sample)
  constructor
  · intro hb'
    obtain ⟨v', sample', completes'⟩ := exec_emitAfskHdr_of_byte hb'
    exact ⟨_, _, v, completes, completes', rfl, congrArg SynthPort.emitted (same_sample sample')⟩
  · intro hb'
    obtain ⟨v', sample', completes'⟩ := exec_emitAfskEom_of_byte hb'
    exact ⟨_, _, v, completes, completes', rfl, congrArg SynthPort.emitted (same_sample sample')⟩

/-- Settles O31, by induction on the number of steps: `advanceAfsk_counts` is one of them. -/
theorem burstPassPositions : Obligations.BurstPassPositions := by
  unfold Obligations.BurstPassPositions
  intro len m c hlen data bit sample
  induction m with
  | zero => simp [data, bit, sample]
  | succ m ih =>
    intro within
    obtain ⟨hd, hb, hs⟩ := ih (Nat.le_of_succ_le within)
    rw [if_pos (show m < 680 * len from within)] at hd hb hs
    rw [Function.iterate_succ_apply']
    exact advanceAfsk_counts (Nat.le_succ_of_le hlen) within hd hb hs

/-! ### The attention synthesizer -/

theorem attnDraws_of_lt {c : Context} (h : c.attnSampleNum.toNat + 1 < 2 ^ 32) : attnDraws c = 0 := if_pos h
theorem attnDraws_of_last {c : Context} (h : c.attnSampleNum.toNat + 1 = 2 ^ 32) : attnDraws c = 1 := if_neg (by omega)

/-- Settles O25. -/
theorem emitAttnResult : Obligations.EmitAttnResult := by
  unfold Obligations.EmitAttnResult
  intro s
  obtain ⟨v, sample, completes⟩ := execEmitAttn_next s
  exact ⟨v, _, _, sample, fun below => ⟨countUp_of_lt below, by rw [attnDraws_of_lt below]; rfl⟩, completes⟩

/-! ### The first sample (R131, R146) -/

/-- At index 0 the phase of every tone is +0.0. -/
theorem phase_zero :
    phase 0 Config.markFreq = 0 ∧ phase 0 Config.spaceFreq = 0 ∧ phase 0 Config.attnF1 = 0 ∧ phase 0 Config.attnF2 = 0 := by
  decide +kernel

theorem afskSample_zero (bit : Bool) : afskSample sin32 bit 0 = some 0 := by
  obtain ⟨mark, space, -, -⟩ := phase_zero
  have tone : phase 0 (toneFreq bit) = 0 := by cases bit <;> assumption
  rw [afskSample, tone, sin32_zero]
  decide +kernel

theorem attnSample_zero : attnSample sin32 0 = some 0 := by
  obtain ⟨-, -, tone1, tone2⟩ := phase_zero
  rw [attnSample, tone1, tone2, sin32_zero]
  decide +kernel

/-- Settles O29: every tone has phase +0.0 at index 0, and the sine of that is +0.0. -/
theorem firstSampleIsZero : Obligations.FirstSampleIsZero := by
  unfold Obligations.FirstSampleIsZero
  intro s
  refine ⟨fun inside first => ?_, fun inside first => ?_, fun first => ?_⟩
  · obtain ⟨v, sample, completes⟩ :=
      exec_emitAfskHdr_of_byte (Vector.getElem?_eq_getElem (xs := s.ctx.encBytes) inside)
    obtain rfl : 0 = v := by simpa [first, afskSample_zero] using sample
    exact ⟨_, completes, rfl⟩
  · obtain ⟨v, sample, completes⟩ := exec_emitAfskEom_of_byte (Vector.getElem?_eq_getElem (xs := eomBytes) inside)
    obtain rfl : 0 = v := by simpa [first, afskSample_zero] using sample
    exact ⟨_, completes, rfl⟩
  · obtain ⟨v, sample, completes⟩ := execEmitAttn_next s
    obtain rfl : 0 = v := by simpa [first, attnSample_zero] using sample
    exact ⟨_, completes, rfl⟩

/-! ### The dispatch, code by code -/

theorem runSynth_hdr (free : BitVec 32) (c : Context) : runSynth free 0 c = emitAfsk c.encBytes c.encLen.toNat c := rfl
theorem runSynth_eom (free : BitVec 32) (c : Context) : runSynth free 1 c = emitAfsk eomBytes 20 c := rfl
theorem runSynth_attn (free : BitVec 32) (c : Context) : runSynth free 2 c = emitAttn free c := rfl
theorem runSynth_silence (free : BitVec 32) (c : Context) : runSynth free 3 c = .ok (0, c) := rfl

/-- The attention and silence synthesizers always return (R146, R150). -/
theorem runSynth_returns {free : BitVec 32} {w : Code} {c : Context} (h : w = 2 ∨ w = 3) :
    ∃ v d, runSynth free w c = .ok (v, d) := by
  rcases h with rfl | rfl
  · obtain ⟨v, -, emits⟩ := emitAttn_returns free c
    exact ⟨v, _, (runSynth_attn free c).trans emits⟩
  · exact ⟨0, c, runSynth_silence free c⟩

/-- What a synthesizer that returned did (R120, R133, R140, R150): its sample, and the sub-state it wrote. -/
theorem runSynth_ok_cases {free : BitVec 32} {w : Code} {c d : Context} {v : Sample} (h : runSynth free w c = .ok (v, d)) :
    ((w = 0 ∨ w = 1) ∧ (∃ len, d = advanceAfsk len c) ∧ ∃ bit, afskSample sin32 bit c.sampleNum.toNat = some v) ∨
    (w = 2 ∧ d = { c with attnSampleNum := countUp free c.attnSampleNum } ∧
      attnSample sin32 c.attnSampleNum.toNat = some v) ∨
    (w = 3 ∧ d = c ∧ v = 0) := by
  rcases code_cases w with rfl | rfl | rfl | rfl
  · rw [runSynth_hdr] at h
    obtain ⟨advanced, b, -, sample⟩ := emitAfsk_ok h
    exact .inl ⟨.inl rfl, ⟨_, advanced⟩, _, sample⟩
  · rw [runSynth_eom] at h
    obtain ⟨advanced, b, -, sample⟩ := emitAfsk_ok h
    exact .inl ⟨.inr rfl, ⟨_, advanced⟩, _, sample⟩
  · rw [runSynth_attn] at h
    obtain ⟨sample, counted⟩ := emitAttn_ok h
    exact .inr (.inl ⟨rfl, counted, sample⟩)
  · rw [runSynth_silence] at h
    simp only [Except.ok.injEq, Prod.mk.injEq] at h
    exact .inr (.inr ⟨rfl, h.2.symm, h.1.symm⟩)

/-- The samples the synthesizers compute are answers of `TO_S16`, or 0. -/
theorem runSynth_sample {free : BitVec 32} {w : Code} {c d : Context} {v : Sample} (h : runSynth free w c = .ok (v, d)) :
    v = 0 ∨ ∃ y, toS16 y = some v := by
  obtain ⟨-, -, bit, sample⟩ | ⟨-, -, sample⟩ | ⟨-, -, silence⟩ := runSynth_ok_cases h
  · exact .inr ⟨_, sample⟩
  · exact .inr ⟨_, sample⟩
  · exact .inl silence

theorem runSynth_silence_sample {free : BitVec 32} {c d : Context} {v : Sample} (h : runSynth free 3 c = .ok (v, d)) :
    v = 0 := by
  rw [runSynth_silence, Except.ok.injEq, Prod.mk.injEq] at h
  exact h.1.symm

/-- R40: `ATTN_SAMPLE_NUM` is written by the attention synthesizer alone. -/
theorem runSynth_attnSampleNum {free : BitVec 32} {w : Code} {c d : Context} {v : Sample}
    (h : runSynth free w c = .ok (v, d)) (hw : w ≠ 2) : d.attnSampleNum = c.attnSampleNum := by
  obtain ⟨-, ⟨len, rfl⟩, -⟩ | ⟨attn, -⟩ | ⟨-, rfl, -⟩ := runSynth_ok_cases h
  · exact (advanceAfsk_same len c).2
  · exact absurd attn hw
  · rfl

/-- R40: the AFSK sub-state is written by the AFSK synthesizer alone. -/
theorem runSynth_afsk {free : BitVec 32} {w : Code} {c d : Context} {v : Sample}
    (h : runSynth free w c = .ok (v, d)) (hw : w = 2 ∨ w = 3) :
    d.dataPos = c.dataPos ∧ d.bitPos = c.bitPos ∧ d.sampleNum = c.sampleNum := by
  obtain ⟨afsk, -⟩ | ⟨-, rfl, -⟩ | ⟨-, rfl, -⟩ := runSynth_ok_cases h
  · rcases hw with rfl | rfl <;> exact absurd afsk (by decide)
  · exact ⟨rfl, rfl, rfl⟩
  · exact ⟨rfl, rfl, rfl⟩

/-- Only the AFSK synthesizer stops (log entry 8). -/
theorem runSynth_error_code {free : BitVec 32} {w : Code} {c : Context} {f : Fault} (h : runSynth free w c = .error f) :
    w = 0 ∨ w = 1 := by
  by_contra afsk
  have returning : w = 2 ∨ w = 3 := by
    have := code_cases w
    tauto
  obtain ⟨v, d, returns⟩ := runSynth_returns (free := free) (c := c) returning
  simp [returns] at h

theorem microDraws_of_ne {w : Code} {c : Context} (h : w ≠ 2) : microDraws w c = 0 := if_neg h

/-- Settles O33: `exec_micro_next` gives the context as the synthesizer left it. -/
theorem microOperationsWriteTheirSubStateOnly : Obligations.MicroOperationsWriteTheirSubStateOnly := by
  unfold Obligations.MicroOperationsWriteTheirSubStateOnly
  intro i s t hi h
  obtain ⟨v, c, run, rfl⟩ := exec_micro_next hi h
  obtain ⟨encBytes, encLen, remaining, stage, chunk⟩ := runSynth_same run
  refine ⟨rfl, ⟨encBytes, encLen, remaining, stage, chunk⟩, fun notAttn => ?_, fun noAfsk => ?_⟩
  · have code : encode i ≠ 2 := fun h => notAttn (by rw [← decodeSchedule_encode hi, h]; rfl)
    exact ⟨runSynth_attnSampleNum run code, by rw [microDraws_of_ne code]; rfl⟩
  · exact runSynth_afsk run (noAfsk.imp (by rintro rfl; rfl) (by rintro rfl; rfl))

/-! ### What stops (R64, log entry 8) -/

theorem emitAfsk_outside {n : Nat} {data : Vector Byte n} {c : Context} (len : Nat) (outside : n ≤ c.dataPos.toNat) :
    emitAfsk data len c = .error .dataIndexOutOfRange := by
  simp [emitAfsk, outside]

theorem slotStep_error {draw i : Nat} {k : Fin 14} {c : Context} {f : Fault} (h : slotStep draw i k c = .error f) :
    f = .dataIndexOutOfRange := by
  rcases run : runSynth (Config.freeAttnSampleNum draw) schedule[k] c with e | ⟨v, d⟩ <;> simp only [slotStep, run] at h
  · obtain rfl : e = f := by simpa using h
    exact runSynth_error run
  · simp at h

theorem runSlots_error {fuel : Nat} {l : SlotLoop} {f : Fault} (h : runSlots fuel l = .error f) :
    f = .dataIndexOutOfRange := by
  induction fuel generalizing l with
  | zero => simp [runSlots] at h
  | succ fuel ih =>
    unfold runSlots at h
    split at h
    · simp at h
    · split at h
      · rename_i e stops
        obtain rfl : e = f := by simpa using h
        exact slotStep_error stops
      · exact ih h

/-- A command that passes its preconditions answers a next state, or stops on a data byte outside its memory. -/
theorem fillChunk_cases (s : State) : (∃ t, fillChunk s = .next t) ∨ fillChunk s = .fault .dataIndexOutOfRange := by
  rcases loop : runSlots Config.chunkCap ⟨s.ctx, 0, s.draws⟩ with f | l
  · exact .inr (by rw [fillChunk, loop, runSlots_error loop])
  · exact .inl ⟨_, by rw [fillChunk, loop]⟩

/-- What any instruction answers: a next state, or the one stop, which is of three instructions. -/
theorem exec_outcomes (i : Instr) (s : State) : (∃ t, exec i s = .next t) ∨
    (exec i s = .fault .dataIndexOutOfRange ∧ (i = .emitAfskHdr ∨ i = .emitAfskEom ∨ i = .generateChunk)) := by
  rcases hi : i.format with - | -
  case cmdw =>
    obtain h | ⟨-, -, cause, -, h⟩ | ⟨rfl, hs⟩ | ⟨rfl, hs⟩ := exec_command_cases i s hi
    · exact .inl ⟨_, h⟩
    · exact .inl ⟨_, h⟩
    · exact .inl ⟨_, hs.exec_configure⟩
    · rw [hs.exec_generateChunk]
      exact (fillChunk_cases s).imp_right fun stops => ⟨stops, by decide⟩
  case schedule =>
    rw [exec_micro hi]
    rcases run : runSynth (Config.freeAttnSampleNum s.draws) (encode i) s.ctx with f | ⟨v, c⟩
    · refine .inr ⟨by rw [deliver, runSynth_error run], ?_⟩
      rw [← decodeSchedule_encode hi]
      exact (runSynth_error_code run).imp (fun code => by rw [code]; rfl) (fun code => .inl (by rw [code]; rfl))
    · exact .inl ⟨_, rfl⟩

/-- Settles O27. -/
theorem dataIndexOutsideMemoryStops : Obligations.DataIndexOutsideMemoryStops := by
  unfold Obligations.DataIndexOutsideMemoryStops
  refine ⟨fun s => ⟨fun outside => ?_, fun outside => ?_⟩, fun i s f h => ?_, fun i s r h => ?_⟩
  · exact congrArg (deliver s) (emitAfsk_outside _ outside)
  · exact congrArg (deliver s) (emitAfsk_outside _ outside)
  · obtain ⟨t, next⟩ | ⟨stops, which⟩ := exec_outcomes i s
    · simp [next] at h
    · obtain rfl : .dataIndexOutOfRange = f := by simpa [stops] using h
      exact ⟨rfl, which⟩
  · obtain ⟨t, next⟩ | ⟨stops, -⟩ := exec_outcomes i s
    · simp [next] at h
    · simp [stops] at h

/-! ### The slot step (R163 to R165) -/

/-- A slot step whose micro-operation returns stores, counts down and advances. -/
theorem slotStep_of_runSynth {draw : Nat} {k : Fin 14} {c d : Context} {v : Sample} (i : Nat)
    (run : runSynth (Config.freeAttnSampleNum draw) schedule[k] c = .ok (v, d)) :
    slotStep draw i k c = .ok (advanceStage k (decrementRemaining (Config.freeRemaining draw) k (storeSample i v d))) := by
  rw [slotStep, run]

/-- R163: a slot step's sample stands in its slot. -/
theorem slotStep_ok_chunk {draw : Nat} {i : Fin 4096} {k : Fin 14} {c c' : Context} (h : slotStep draw i k c = .ok c') :
    ∃ v d, runSynth (Config.freeAttnSampleNum draw) schedule[k] c = .ok (v, d) ∧ c'.chunk[i] = v := by
  obtain ⟨v, d, run, rfl⟩ := slotStep_ok h
  exact ⟨v, d, run, by rw [advanceStage_chunk, decrementRemaining_chunk, storeSample_getElem, if_pos rfl]⟩

/-- R164, R165: a slot step counts its stage's counter down, and advances the stage exactly where it is then 0. -/
theorem slotStep_ok_counter {draw i : Nat} {k : Fin 14} {c c' : Context} (h : slotStep draw i k c = .ok c') :
    c'.remaining[k] = countDown (Config.freeRemaining draw) c.remaining[k] ∧
      c'.stage = if c'.remaining[k] = 0 then Stage.ofIndex (k + 1) else c.stage := by
  obtain ⟨v, d, run, rfl⟩ := slotStep_ok h
  have same := runSynth_same run
  constructor
  · rw [advanceStage_remaining, decrementRemaining_getElem, if_pos rfl, storeSample_remaining, same.remaining]
  · rw [advanceStage_stage, advanceStage_remaining, decrementRemaining_stage, storeSample_stage, same.stage]

/-- Settles O26: the sample of a silence stage is 0, whether `EMIT_SILENCE` runs on its own or in a slot step. -/
theorem emitSilenceReturnsZero : Obligations.EmitSilenceReturnsZero := by
  unfold Obligations.EmitSilenceReturnsZero
  refine ⟨fun s => rfl, fun draw i k c d silence h => ?_⟩
  obtain ⟨v, d', run, stored⟩ := slotStep_ok_chunk h
  rw [silence] at run
  rw [stored, runSynth_silence_sample run]

/-- Settles O36: the slot step and `exec` run the same dispatch. -/
theorem slotStepRunsTheScheduledMicroOperation : Obligations.SlotStepRunsTheScheduledMicroOperation := by
  unfold Obligations.SlotStepRunsTheScheduledMicroOperation
  intro s t k i v live h returned
  rw [exec_decodeSchedule] at h
  obtain ⟨v', d, run, rfl⟩ := deliver_next h
  obtain rfl : v' = v := SynthPort.emitted.inj returned
  have steps := slotStep_of_runSynth i.val run
  obtain ⟨encBytes, encLen, slots, counters, -⟩ := slotStep_frame steps
  obtain ⟨counter, stage⟩ := slotStep_ok_counter steps
  refine ⟨_, steps, ?_, fun j hj => slots j (Fin.val_ne_of_ne hj), fun above => ?_, counters, stage, ?_⟩
  · rw [advanceStage_chunk, decrementRemaining_chunk, storeSample_getElem, if_pos rfl]
  · rw [counter, countDown_of_ne above]
  · exact ⟨by simp, by simp, by simp, by simp, encBytes, encLen⟩

/-- Settles O28: past its limit a counter holds the free value of the draw, and everything else is as below it. -/
theorem counterLimitsAreFreeValues : Obligations.CounterLimitsAreFreeValues := by
  unfold Obligations.CounterLimitsAreFreeValues
  refine ⟨fun s last => ?_, fun draw i k c owner zero => ?_⟩
  · obtain ⟨v, -, completes⟩ := execEmitAttn_next s
    exact ⟨_, completes, countUp_of_last last, by rw [attnDraws_of_last last]⟩
  · obtain ⟨v, d, run⟩ := runSynth_returns (free := Config.freeAttnSampleNum draw) (c := c) owner
    have steps := slotStep_of_runSynth i.val run
    obtain ⟨counter, stage⟩ := slotStep_ok_counter steps
    rw [zero, countDown_zero] at counter
    rw [counter] at stage
    exact ⟨_, steps, counter, stage, fun silence => emitSilenceReturnsZero.2 draw i k c _ silence steps⟩

/-- Settles O35, stage by stage over the 14 live codes. -/
theorem scheduleOwnsEachStage : Obligations.ScheduleOwnsEachStage := by
  unfold Obligations.ScheduleOwnsEachStage
  intro st k live
  obtain rfl : st = Stage.ofIndex k := by rw [← Stage.live_eq_some.mp live, Stage.ofIndex_index]
  clear live
  revert k
  decide

end Sys2Proof.Machine
end

section
/-! `CONFIGURE`: the location list, the budgets and the encoded header, offset by offset. -/

namespace Sys2Proof.Machine

/-! ### The location list (R23, R106) -/

/-- No entry before the end of the list is the marker. -/
theorem getElem_ne_marker {marker : Vector Byte 6} {loc : Vector (Vector Byte 6) 31} {k : Nat} (hk : k < 31)
    (before : k < countLocations marker loc) : loc[k] ≠ marker := by
  simpa using List.not_of_lt_findIdx (xs := loc.toList) (p := (· = marker)) before

/-- The entry the list ends at, where there is one, is the marker. -/
theorem getElem_eq_marker {marker : Vector Byte 6} {loc : Vector (Vector Byte 6) 31} {k : Nat} (hk : k < 31)
    (ends : k = countLocations marker loc) : loc[k] = marker := by
  subst ends
  have found := List.findIdx_getElem (xs := loc.toList) (p := (· = marker)) (w := by simpa [countLocations] using hk)
  rw [Vector.getElem_toList] at found
  exact of_decide_eq_true found

/-- Settles O19. -/
theorem locationsEndAtTheFirstMarker : Obligations.LocationsEndAtTheFirstMarker := by
  unfold Obligations.LocationsEndAtTheFirstMarker
  intro marker loc
  exact ⟨countLocations_le marker loc, fun k => getElem_ne_marker k.isLt, fun k => getElem_eq_marker k.isLt⟩

/-- Lists that agree up to the end of one of them end at the same entry: an earlier end of either would be a marker in both. -/
theorem countLocations_congr {marker : Vector Byte 6} {loc loc' : Vector (Vector Byte 6) 31}
    (agree : ∀ k : Fin 31, k.val ≤ countLocations marker loc → loc'[k] = loc[k]) :
    countLocations marker loc' = countLocations marker loc := by
  have at_most := countLocations_le marker loc
  have at_most' := countLocations_le marker loc'
  rcases Nat.lt_trichotomy (countLocations marker loc') (countLocations marker loc) with before | same | after
  · have hk : countLocations marker loc' < 31 := by omega
    exact absurd ((agree ⟨_, hk⟩ before.le).symm.trans (getElem_eq_marker hk rfl)) (getElem_ne_marker hk before)
  · exact same
  · have hk : countLocations marker loc < 31 := by omega
    exact absurd ((agree ⟨_, hk⟩ le_rfl).trans (getElem_eq_marker hk rfl)) (getElem_ne_marker hk after)

/-- R106: of the location list `CONFIGURE` reads the first `n` entries only. -/
theorem configuredContext_congr_loc (dash : Bool) (h : AlertHeader) {loc : Vector (Vector Byte 6) 31} {n : Nat}
    (agree : loc.toList.take n = h.loc.toList.take n) :
    configuredContext dash { h with loc := loc } n = configuredContext dash h n := by
  simp only [configuredContext, encodeHeader, agree]

/-- Settles O20: the two lists end at the same entry and agree before it. -/
theorem entriesAfterTheMarkerAreIgnored : Obligations.EntriesAfterTheMarkerAreIgnored := by
  unfold Obligations.EntriesAfterTheMarkerAreIgnored
  intro s s' hs clear same_fields agree
  have same_count : s'.locations = s.locations := countLocations_congr agree
  have timed : s'.header.attnSeconds ≠ 0 := by rw [same_fields]; exact hs.timed
  have hs' : s'.configurable := ⟨clear, same_count ▸ hs.located, timed⟩
  have same_codes : s'.header.loc.toList.take s.locations = s.header.loc.toList.take s.locations := by
    refine List.ext_getElem (by simp) fun k hk _ => ?_
    obtain ⟨before, hk⟩ : k < s.locations ∧ k < 31 := by simpa using hk
    simpa using agree ⟨k, hk⟩ before.le
  refine ⟨_, _, hs.exec_configure, hs'.exec_configure, ?_, rfl⟩
  rw [markConfigured_ctx, markConfigured_ctx, same_count, same_fields]
  exact configuredContext_congr_loc _ s.header same_codes

/-- Settles O21: `CONFIGURE` reads the input record alone. -/
theorem configureForgetsTheEarlierAlert : Obligations.ConfigureForgetsTheEarlierAlert := by
  unfold Obligations.ConfigureForgetsTheEarlierAlert
  intro s s' hs clear same_header
  have same_count : s'.locations = s.locations := by rw [State.locations, same_header, State.locations]
  have hs' : s'.configurable := ⟨clear, same_count ▸ hs.located, same_header ▸ hs.timed⟩
  refine ⟨_, _, hs.exec_configure, hs'.exec_configure, ?_, rfl, rfl⟩
  rw [markConfigured_ctx, markConfigured_ctx, same_count, same_header]

/-! ### Lengths and budgets (R109, R110) -/

/-- R109, with `START_CODE_DASH` = false. -/
theorem headerLen_eq (n : Nat) : headerLen n = 50 + 7 * n := rfl

/-- The table of budgets, by stage code. -/
theorem budget_eq (encLen secs : Nat) (k : Fin 14) : budget encLen secs k =
    if k.val = 0 ∨ k.val = 2 ∨ k.val = 4 then 680 * encLen
    else if k.val = 8 ∨ k.val = 10 ∨ k.val = 12 then 13600
    else if k.val = 6 then secs * 44100
    else 44100 := by
  fin_cases k <;> rfl

/-- The budgets in the order of the stages. -/
theorem budgets_eq (encLen secs : Nat) : (List.finRange 14).map (budget encLen secs) =
    [680 * encLen, 44100, 680 * encLen, 44100, 680 * encLen, 44100, secs * 44100, 44100, 13600, 44100, 13600, 44100, 13600,
      44100] := by
  simp [List.finRange_succ, budget_eq]

/-- Said of variables: with the budgets written out, the kernel would count the numerals up one by one. -/
theorem sum_stages (hdr sil attn eom : Nat) :
    [hdr, sil, hdr, sil, hdr, sil, attn, sil, eom, sil, eom, sil, eom, sil].sum = 3 * hdr + 7 * sil + attn + 3 * eom := by
  simp only [List.sum_cons, List.sum_nil]
  omega

/-- Settles O22: three header bursts, three EOM bursts, the attention signal and seven silences. -/
theorem totalIsTheSumOfTheBudgets : Obligations.TotalIsTheSumOfTheBudgets := by
  unfold Obligations.TotalIsTheSumOfTheBudgets
  intro encLen secs
  rw [totalSamples, budgets_eq, sum_stages]
  omega

theorem configuredContext_chunk (dash : Bool) (h : AlertHeader) (n : Nat) :
    (configuredContext dash h n).chunk = Vector.replicate 4096 0 := rfl

/-- Settles O15: every register of `configuredContext`, and the three registers `CONFIGURE` writes outside it. -/
theorem configureBuildsTheContext : Obligations.ConfigureBuildsTheContext := by
  unfold Obligations.ConfigureBuildsTheContext
  intro s hs
  have bounds := hs.locations_bounds
  refine ⟨_, hs.exec_configure, configuredContext_encLen s.header bounds, fun k => ?_, rfl, rfl, rfl, rfl, rfl, fun i => ?_,
    rfl⟩
  · rw [← headerLen_eq, ← budget_eq]
    exact configuredContext_remaining s.header bounds k
  · rw [markConfigured_ctx, configuredContext_chunk]
    exact Vector.getElem_replicate i.isLt

/-! ### The encoded header, behind its first bytes (R116) -/

/-- The bytes of an encoded header behind `prefixBytes`, which `START_CODE_DASH` does not touch. -/
def encodeFields (h : AlertHeader) (n : Nat) : List Byte :=
  let buf := appendField (appendField [] h.org) h.evt
  let buf := plusOverwrite ((h.loc.toList.take n).foldl appendField buf)
  appendField (appendField (appendField buf h.vtp) h.otime) h.call

theorem appendField_append {w : Nat} (start buf : List Byte) (field : Vector Byte w) :
    appendField (start ++ buf) field = start ++ appendField buf field := by
  simp only [appendField, List.append_assoc]

theorem foldl_appendField_append {w : Nat} (fields : List (Vector Byte w)) (start buf : List Byte) :
    fields.foldl appendField (start ++ buf) = start ++ fields.foldl appendField buf := by
  induction fields generalizing buf with
  | nil => rfl
  | cons field fields ih => rw [List.foldl_cons, List.foldl_cons, appendField_append, ih]

theorem plusOverwrite_append {start buf : List Byte} (nonempty : 0 < buf.length) :
    plusOverwrite (start ++ buf) = start ++ plusOverwrite buf := by
  unfold plusOverwrite
  rw [List.length_append, List.set_append_right _ _ (by omega), show start.length + buf.length - 1 - start.length =
    buf.length - 1 by omega]

/-- R103, R116: an encoded header is `prefixBytes`, then the same bytes whatever `START_CODE_DASH` is. -/
theorem encodeHeader_eq_append (dash : Bool) (h : AlertHeader) (n : Nat) :
    encodeHeader dash h n = prefixBytes dash ++ encodeFields h n := by
  have nonempty : 0 < ((h.loc.toList.take n).foldl appendField (appendField (appendField [] h.org) h.evt)).length := by
    simp only [foldl_appendField_length, appendField_length]; omega
  unfold encodeHeader encodeFields
  simp only [← appendField_append, ← plusOverwrite_append nonempty, ← foldl_appendField_append, List.append_nil]

/-- Settles O18: the two values of `prefixBytes` differ by a dash at their end, offset 20. -/
theorem startCodeDashInsertsOneByte : Obligations.StartCodeDashInsertsOneByte := by
  unfold Obligations.StartCodeDashInsertsOneByte
  intro h n _ _
  rw [encodeHeader_eq_append, encodeHeader_eq_append]
  rfl

/-! ### A byte of the buffer after each write (R104, R107) -/

/-- A byte written earlier stands while the buffer grows. -/
theorem getElem?_of_prefix {p buf : List Byte} (kept : p <+: buf) {i : Nat} {x : Byte} (h : p[i]? = some x) :
    buf[i]? = some x := by
  obtain ⟨hi, rfl⟩ := List.getElem?_eq_some_iff.mp h
  exact List.prefix_iff_getElem?.mp kept i hi

theorem appendField_getElem?_field {w : Nat} {buf : List Byte} {field : Vector Byte w} {off : Nat} (len : buf.length = off)
    (i : Fin w) : (appendField buf field)[off + i]? = some field[i] := by
  subst len
  rw [appendField, List.append_assoc, List.getElem?_append_right (Nat.le_add_right _ _), Nat.add_sub_cancel_left,
    List.getElem?_append_left (by simp)]
  simp

theorem appendField_getElem?_dash {w : Nat} {buf : List Byte} {field : Vector Byte w} {off : Nat}
    (len : buf.length + w = off) : (appendField buf field)[off]? = some 0x2D := by
  subst len
  rw [appendField, List.getElem?_append_right (by simp)]
  simp

/-- Field `k` of a run of fields, each `w` bytes and a dash, stands at `(w + 1) * k`. -/
theorem foldl_appendField_getElem? {w : Nat} {fields : List (Vector Byte w)} {k : Nat} (hk : k < fields.length)
    {buf : List Byte} {off : Nat} (len : buf.length = off) :
    (∀ i : Fin w, (fields.foldl appendField buf)[off + (w + 1) * k + i]? = some fields[k][i]) ∧
      (fields.foldl appendField buf)[off + (w + 1) * k + w]? = some 0x2D := by
  induction fields generalizing buf off k with
  | nil => simp at hk
  | cons field fields ih =>
    rw [List.foldl_cons]
    cases k with
    | zero =>
      have stands := prefix_foldl_appendField fields (appendField buf field)
      exact ⟨fun i => getElem?_of_prefix stands (appendField_getElem?_field len i),
        getElem?_of_prefix stands (appendField_getElem?_dash (by rw [len]; rfl))⟩
    | succ k =>
      have next := ih (Nat.lt_of_succ_lt_succ hk) (buf := appendField buf field) rfl
      rw [appendField_length, len, show off + w + 1 + (w + 1) * k = off + (w + 1) * (k + 1) by ring] at next
      exact next

theorem plusOverwrite_getElem?_of_lt {buf : List Byte} {i : Nat} (before : i + 1 < buf.length) :
    (plusOverwrite buf)[i]? = buf[i]? := List.getElem?_set_ne (by omega)

theorem plusOverwrite_getElem?_last {buf : List Byte} {i : Nat} (last : i + 1 = buf.length) :
    (plusOverwrite buf)[i]? = some 0x2B := by
  rw [plusOverwrite, show buf.length - 1 = i by omega]
  exact List.getElem?_set_self (by omega)

/-! ### The layout of R76 -/

section layout
variable (h : AlertHeader) (n : Nat)

/-- The buffers after the originator code, the event code and the location codes. -/
def orgBuffer : List Byte := appendField (prefixBytes false) h.org
def eventBuffer : List Byte := appendField (orgBuffer h) h.evt
def codesBuffer : List Byte := (h.loc.toList.take n).foldl appendField (eventBuffer h)
/-- The buffers after the plus, the valid time and the originator time. -/
def plusBuffer : List Byte := plusOverwrite (codesBuffer h n)
def validTimeBuffer : List Byte := appendField (plusBuffer h n) h.vtp
def originTimeBuffer : List Byte := appendField (validTimeBuffer h n) h.otime

theorem encodeHeader_eq_appendField : encodeHeader false h n = appendField (originTimeBuffer h n) h.call := rfl

theorem orgBuffer_length : (orgBuffer h).length = 24 := by simp [orgBuffer]
theorem eventBuffer_length : (eventBuffer h).length = 28 := by simp [eventBuffer, orgBuffer_length]

variable {n}

theorem codesBuffer_length (hn : n ≤ 31) : (codesBuffer h n).length = 28 + 7 * n := by
  rw [codesBuffer, foldl_appendField_length, eventBuffer_length, List.length_take, Vector.length_toList, Nat.min_eq_left hn]

theorem plusBuffer_length (hn : n ≤ 31) : (plusBuffer h n).length = 28 + 7 * n := by
  rw [plusBuffer, plusOverwrite_length, codesBuffer_length h hn]

theorem validTimeBuffer_length (hn : n ≤ 31) : (validTimeBuffer h n).length = 33 + 7 * n := by
  rw [validTimeBuffer, appendField_length, plusBuffer_length h hn]; omega

theorem originTimeBuffer_length (hn : n ≤ 31) : (originTimeBuffer h n).length = 41 + 7 * n := by
  rw [originTimeBuffer, appendField_length, validTimeBuffer_length h hn]; omega

variable (n)

theorem originTimeBuffer_prefix : originTimeBuffer h n <+: encodeHeader false h n := prefix_appendField _ _
theorem validTimeBuffer_prefix : validTimeBuffer h n <+: encodeHeader false h n :=
  (prefix_appendField _ _).trans (originTimeBuffer_prefix h n)
theorem plusBuffer_prefix : plusBuffer h n <+: encodeHeader false h n :=
  (prefix_appendField _ _).trans (validTimeBuffer_prefix h n)
theorem eventBuffer_prefix : eventBuffer h <+: codesBuffer h n := prefix_foldl_appendField _ _
theorem orgBuffer_prefix : orgBuffer h <+: eventBuffer h := prefix_appendField _ _

variable {n}

/-- The plus overwrite keeps every byte of the location codes but the last dash. -/
theorem encodeHeader_getElem?_of_codes (hn : n ≤ 31) {i : Nat} {x : Byte} (before : i + 1 < 28 + 7 * n)
    (at_i : (codesBuffer h n)[i]? = some x) : (encodeHeader false h n)[i]? = some x := by
  refine getElem?_of_prefix (plusBuffer_prefix h n) ?_
  rw [plusBuffer, plusOverwrite_getElem?_of_lt (by rwa [codesBuffer_length h hn]), at_i]

/-- The bytes up to the event code's dash stand, where a location code follows them. -/
theorem encodeHeader_getElem?_of_event (hn : 1 ≤ n ∧ n ≤ 31) {i : Nat} {x : Byte}
    (at_i : (eventBuffer h)[i]? = some x) : (encodeHeader false h n)[i]? = some x := by
  obtain ⟨inside, -⟩ := List.getElem?_eq_some_iff.mp at_i
  rw [eventBuffer_length] at inside
  exact encodeHeader_getElem?_of_codes h hn.2 (by omega) (getElem?_of_prefix (eventBuffer_prefix h n) at_i)

theorem encodeHeader_getElem?_of_org (hn : 1 ≤ n ∧ n ≤ 31) {i : Nat} {x : Byte}
    (at_i : (orgBuffer h)[i]? = some x) : (encodeHeader false h n)[i]? = some x :=
  encodeHeader_getElem?_of_event h hn (getElem?_of_prefix (orgBuffer_prefix h) at_i)

theorem encodeHeader_getElem?_of_prefixBytes (hn : 1 ≤ n ∧ n ≤ 31) {i : Nat} {x : Byte}
    (at_i : (prefixBytes false)[i]? = some x) : (encodeHeader false h n)[i]? = some x :=
  encodeHeader_getElem?_of_org h hn (getElem?_of_prefix (prefix_appendField _ _) at_i)

/-- R105, R107: location code `k` and the byte behind it, a plus behind the last code. -/
theorem encodeHeader_getElem?_code (hn : 1 ≤ n ∧ n ≤ 31) (k : Fin 31) (hk : k.val < n) :
    (∀ i : Fin 6, (encodeHeader false h n)[28 + 7 * k.val + i.val]? = some h.loc[k][i]) ∧
      (encodeHeader false h n)[34 + 7 * k.val]? = some (if k.val + 1 = n then 0x2B else 0x2D) := by
  have in_list : k.val < (h.loc.toList.take n).length := by simp [hk]
  obtain ⟨code, dash⟩ := foldl_appendField_getElem? in_list (eventBuffer_length h)
  constructor
  · intro i
    refine encodeHeader_getElem?_of_codes h hn.2 (by omega) ((code i).trans ?_)
    simp
  · split_ifs with last
    · refine getElem?_of_prefix (plusBuffer_prefix h n) (plusOverwrite_getElem?_last ?_)
      rw [codesBuffer_length h hn.2]; omega
    · refine encodeHeader_getElem?_of_codes h hn.2 (by omega) ?_
      rw [← dash, codesBuffer]
      congr 1
      omega
end layout

/-- `ENC_BYTES` holds a byte string from index 0 on, and 0 behind it (R102). -/
theorem encBuffer_getElem?_of_getElem? {bytes : List Byte} (fits : bytes.length ≤ 268) {i : Nat} {x : Byte}
    (h : bytes[i]? = some x) : (encBuffer bytes)[i]? = some x := by
  obtain ⟨hi, rfl⟩ := List.getElem?_eq_some_iff.mp h
  simp [encBuffer, hi, Nat.lt_of_lt_of_le hi fits]

theorem encBuffer_getElem?_of_ge {bytes : List Byte} {i : Nat} (past_end : bytes.length ≤ i) (hi : i < 268) :
    (encBuffer bytes)[i]? = some 0 := by
  simp [encBuffer, hi, past_end]

/-- Settles O16: each byte is read off the buffer as it stood after the write that put it there. -/
theorem encodedHeaderLayout : Obligations.EncodedHeaderLayout := by
  unfold Obligations.EncodedHeaderLayout
  intro s hs
  have hn := hs.locations_bounds
  have len : (encodeHeader false s.header s.locations).length = 50 + 7 * s.locations := encodeHeader_length _ _ hn.2
  have byte {i : Nat} {x : Byte} (h : (encodeHeader false s.header s.locations)[i]? = some x) :
      (configuredContext Config.startCodeDash s.header s.locations).encBytes[i]? = some x :=
    encBuffer_getElem?_of_getElem? (len.trans_le (by omega)) h
  have at_start {i : Nat} {x : Byte} (h : (prefixBytes false)[i]? = some x) :=
    byte (encodeHeader_getElem?_of_prefixBytes s.header hn h)
  have at_org {i : Nat} {x : Byte} (h : (orgBuffer s.header)[i]? = some x) :=
    byte (encodeHeader_getElem?_of_org s.header hn h)
  have at_event {i : Nat} {x : Byte} (h : (eventBuffer s.header)[i]? = some x) :=
    byte (encodeHeader_getElem?_of_event s.header hn h)
  have at_validTime {i : Nat} {x : Byte} (h : (validTimeBuffer s.header s.locations)[i]? = some x) :=
    byte (getElem?_of_prefix (validTimeBuffer_prefix s.header _) h)
  have at_originTime {i : Nat} {x : Byte} (h : (originTimeBuffer s.header s.locations)[i]? = some x) :=
    byte (getElem?_of_prefix (originTimeBuffer_prefix s.header _) h)
  have at_call {i : Nat} {x : Byte} (h : (appendField (originTimeBuffer s.header s.locations) s.header.call)[i]? = some x) :=
    byte ((encodeHeader_eq_appendField s.header s.locations) ▸ h)
  have plus_len := plusBuffer_length s.header hn.2
  have validTime_len := validTimeBuffer_length s.header hn.2
  have originTime_len := originTimeBuffer_length s.header hn.2
  refine ⟨_, hs.exec_configure, configuredContext_encLen s.header hn, ?preamble, at_start rfl, at_start rfl, at_start rfl,
    at_start rfl, ?org, ?orgDash, ?event, ?eventDash, ?codes, ?validTime, ?validTimeDash, ?originTime, ?originTimeDash, ?call,
    ?callDash, ?rest⟩
  case preamble =>
    have preamble : ∀ i < 16, (prefixBytes false)[i]? = some 0xAB := by decide
    exact fun i hi => at_start (preamble i hi)
  case org => exact fun i => at_org (appendField_getElem?_field (prefixBytes_length false) i)
  case orgDash => exact at_org (appendField_getElem?_dash (by rw [prefixBytes_length]; rfl))
  case event => exact fun i => at_event (appendField_getElem?_field (orgBuffer_length s.header) i)
  case eventDash => exact at_event (appendField_getElem?_dash (by rw [orgBuffer_length]))
  case codes =>
    intro k hk
    obtain ⟨code, behind⟩ := encodeHeader_getElem?_code s.header hn k hk
    exact ⟨fun i => byte (code i), byte behind⟩
  case validTime => exact fun i => at_validTime (appendField_getElem?_field plus_len i)
  case validTimeDash => exact at_validTime (appendField_getElem?_dash (by rw [plus_len]; omega))
  case originTime => exact fun i => at_originTime (appendField_getElem?_field validTime_len i)
  case originTimeDash => exact at_originTime (appendField_getElem?_dash (by rw [validTime_len]; omega))
  case call => exact fun i => at_call (appendField_getElem?_field originTime_len i)
  case callDash => exact at_call (appendField_getElem?_dash (by rw [originTime_len]; omega))
  case rest => exact fun i past_end inside => encBuffer_getElem?_of_ge (len.trans_le past_end) inside

end Sys2Proof.Machine
end

section
/-! Positions in an alert: every slot step takes the alert one sample on, and the sample it stores is that of the stream (R171). -/

namespace Sys2Proof.Machine

/-! ### The sample number of a place -/

/-- The number, in the stream of the alert, of the sample that slot step `j` of stage `k` emits (R171). -/
def position (encLen secs k j : Nat) : Nat := (((List.finRange 14).map (budget encLen secs)).take k).sum + j

section position
variable {encLen secs k : Nat}

theorem position_stage_succ (hk : k < 14) :
    position encLen secs (k + 1) 0 = position encLen secs k 0 + budget encLen secs ⟨k, hk⟩ := by
  rw [position, List.sum_take_succ _ k (by simpa using hk)]
  simp [position]

theorem position_add (j : Nat) : position encLen secs k j = position encLen secs k 0 + j := rfl

theorem position_mono {k' : Nat} (h : k ≤ k') : position encLen secs k 0 ≤ position encLen secs k' 0 :=
  List.monotone_sum_take _ h

/-- The alert rests at `DONE`, past its last sample. -/
theorem position_done : position encLen secs 14 0 = totalSamples encLen secs := by
  rw [position, List.take_of_length_le (by simp), totalSamples, Nat.add_zero]

theorem position_lt_total (hk : k < 14) {j : Nat} (hj : j < budget encLen secs ⟨k, hk⟩) :
    position encLen secs k j < totalSamples encLen secs := by
  have next := position_mono (encLen := encLen) (secs := secs) (show k + 1 ≤ 14 from hk)
  rw [position_done, position_stage_succ hk] at next
  rw [position_add]
  omega

/-- R164, R165: the next place is the next sample. -/
theorem position_next (hk : k < 14) {j : Nat} (hj : j < budget encLen secs ⟨k, hk⟩) :
    position encLen secs (nextStage encLen secs k j) (nextSlot encLen secs k j) = position encLen secs k j + 1 := by
  unfold nextStage nextSlot
  rw [stageLen_live hk]
  split_ifs with within
  · rfl
  · rw [position_stage_succ hk, position_add j]
    omega
end position

/-! ### The stream -/

/-- A stream behind some stages is the stream of the rest. -/
theorem streamSample_append (encBytes : Vector Byte 268) (before rest : List (Fin 14 × Nat)) (m : Nat) :
    streamSample encBytes (before ++ rest) ((before.map Prod.snd).sum + m) = streamSample encBytes rest m := by
  induction before with
  | nil => simp
  | cons stage before ih =>
    obtain ⟨k, len⟩ := stage
    rw [List.cons_append, streamSample, List.map_cons, List.sum_cons, Nat.add_assoc, if_neg (by omega), Nat.add_sub_cancel_left, ih]

/-- R171: the stream at a place of the alert is the sample of its stage. -/
theorem alertSample_position (encBytes : Vector Byte 268) {encLen secs k j : Nat} (hk : k < 14)
    (hj : j < budget encLen secs ⟨k, hk⟩) :
    alertSample encBytes encLen secs (position encLen secs k j) = stageSample encBytes ⟨k, hk⟩ j := by
  have split : ((List.finRange 14).map fun k => (k, budget encLen secs k)) =
      (((List.finRange 14).map fun k => (k, budget encLen secs k)).take k) ++ (⟨k, hk⟩, budget encLen secs ⟨k, hk⟩) ::
        (((List.finRange 14).map fun k => (k, budget encLen secs k)).drop (k + 1)) := by
    conv_lhs => rw [← List.take_append_drop k (List.map _ _), List.drop_eq_getElem_cons (by simpa using hk)]
    simp
  have before : (((List.finRange 14).map fun k => (k, budget encLen secs k)).take k).map Prod.snd =
      ((List.finRange 14).map (budget encLen secs)).take k := by
    rw [List.map_take, List.map_map]
    rfl
  rw [alertSample, split, position, ← before, streamSample_append, streamSample, if_pos hj]

/-- R150, R171: the last second of an alert is silence. -/
theorem alertSample_last_second (encBytes : Vector Byte 268) {encLen secs m : Nat}
    (late : totalSamples encLen secs ≤ m + 44100) (within : m < totalSamples encLen secs) :
    alertSample encBytes encLen secs m = some 0 := by
  have second : budget encLen secs ⟨13, by decide⟩ = 44100 := by simp [budget_eq]
  have last : totalSamples encLen secs = position encLen secs 13 0 + 44100 := by
    rw [← position_done, position_stage_succ (k := 13) (by decide), second]
  obtain ⟨j, rfl⟩ := Nat.exists_eq_add_of_le (show position encLen secs 13 0 ≤ m by omega)
  rw [← position_add, alertSample_position encBytes (k := 13) (by decide) (by omega)]
  rfl

/-! ### A place of the alert -/

section place
variable {n secs k j : Nat} {c : Context} (h : AlertAt n secs k j c)
include h

theorem AlertAt.live_or_done : (∃ hk : k < 14, j < budget (headerLen n) secs ⟨k, hk⟩) ∨ (k = 14 ∧ j = 0) := by
  have offset := h.offset
  rcases Nat.lt_or_ge k 14 with hk | hk
  · exact .inl ⟨hk, by rwa [stageLen_live hk] at offset⟩
  · have := h.stage ▸ c.stage.index_le
    obtain rfl : k = 14 := by omega
    exact .inr ⟨rfl, Nat.lt_one_iff.mp offset⟩

theorem AlertAt.position_le : position (headerLen n) secs k j ≤ totalSamples (headerLen n) secs := by
  obtain ⟨hk, hj⟩ | ⟨rfl, rfl⟩ := h.live_or_done
  · exact (position_lt_total hk hj).le
  · exact position_done.le

/-- R162: the alert is over exactly where every sample has been emitted. -/
theorem AlertAt.done_iff : c.stage = .done ↔ position (headerLen n) secs k j = totalSamples (headerLen n) secs := by
  rw [← Stage.index_eq_14, h.stage]
  obtain ⟨hk, hj⟩ | ⟨rfl, rfl⟩ := h.live_or_done
  · exact ⟨fun done => absurd done hk.ne, fun total => absurd total (position_lt_total hk hj).ne⟩
  · exact ⟨fun _ => position_done, fun _ => rfl⟩

theorem AlertAt.stage_of_live {k' : Fin 14} (live : c.stage.live = some k') : k'.val = k :=
  (Stage.live_eq_some.mp live).symm.trans h.stage

/-- R164: the counter of the stage the alert stands in is not 0. -/
theorem AlertAt.remaining_ne_zero (hk : k < 14) : c.remaining[(⟨k, hk⟩ : Fin 14)] ≠ 0 := by
  intro zero
  have left := h.remaining ⟨k, hk⟩
  have offset := h.offset
  rw [stageLen_live hk] at offset
  simp only [leftAt, lt_irrefl, if_false, if_true, zero, BitVec.ofNat_eq_ofNat, BitVec.toNat_ofNat] at left
  omega

/-- R174: in stage `DONE` every counter is 0, the sub-state is cleared and `ATTN_SAMPLE_NUM` is the duration in samples. -/
theorem AlertAt.registers_of_done (done : c.stage = .done) :
    (∀ i : Fin 14, c.remaining[i] = 0) ∧ c.dataPos = 0 ∧ c.bitPos = 0 ∧ c.sampleNum = 0 ∧
      c.attnSampleNum.toNat = secs * 44100 := by
  obtain rfl : k = 14 := by rw [← h.stage, done]; rfl
  have cleared : burstPos 14 j = 0 := rfl
  have data := h.dataPos
  have bit := h.bitPos
  have sample := h.sampleNum
  rw [cleared] at data bit sample
  refine ⟨fun i => BitVec.eq_of_toNat_eq ?_, BitVec.eq_of_toNat_eq data, BitVec.eq_of_toNat_eq bit,
    BitVec.eq_of_toNat_eq sample, h.attn⟩
  rw [h.remaining i, leftAt, if_pos i.isLt]
  rfl
end place

/-! ### The sum of `REMAINING` -/

theorem remainingSum_eq_sum (c : Context) : remainingSum c = ∑ i : Fin 14, c.remaining[i].toNat := by
  rw [remainingSum, ← List.sum_ofFn]
  congr 1
  exact List.ext_getElem (by simp) fun i hi _ => by
    simp only [List.getElem_map, Vector.getElem_toList, List.getElem_ofFn, Fin.getElem_fin]

/-- R164: a slot step of a stage whose counter is not 0 lowers the sum by one. -/
theorem slotStep_ok_remainingSum {draw i : Nat} {k : Fin 14} {c c' : Context} (h : slotStep draw i k c = .ok c')
    (above : c.remaining[k] ≠ 0) : remainingSum c = remainingSum c' + 1 := by
  obtain ⟨counter, -⟩ := slotStep_ok_counter h
  obtain ⟨-, -, -, others, -⟩ := slotStep_frame h
  rw [countDown_of_ne above] at counter
  have each (l : Fin 14) : c.remaining[l].toNat = c'.remaining[l].toNat + if l = k then 1 else 0 := by
    split_ifs with own
    · subst own
      rw [counter]
      bv_omega
    · rw [others l own]; rfl
  rw [remainingSum_eq_sum, remainingSum_eq_sum, Finset.sum_congr rfl fun l _ => each l, Finset.sum_add_distrib,
    Finset.sum_ite_eq' Finset.univ k, if_pos (Finset.mem_univ k)]

/-! ### The slot loop -/

/-- What every slot step keeps, the slot loop keeps. -/
theorem runSlots_induction {P : SlotLoop → Prop}
    (keeps : ∀ l k c, P l → l.ctx.stage.live = some k → slotStep l.draws l.slot k l.ctx = .ok c →
      P ⟨c, l.slot + 1, l.draws + slotDraws k l.ctx⟩)
    {fuel : Nat} {l m : SlotLoop} (start : P l) (loop : runSlots fuel l = .ok m) : P m := by
  induction fuel generalizing l with
  | zero =>
    obtain ⟨rfl, -⟩ | ⟨f, -, -, hf, -⟩ := runSlots_ok loop
    · exact start
    · exact absurd hf (Nat.succ_ne_zero f).symm
  | succ f ih =>
    obtain ⟨rfl, -⟩ | ⟨f', k, c, hf, live, steps, rest⟩ := runSlots_ok loop
    · exact start
    · obtain rfl : f = f' := Nat.succ.inj hf
      exact ih (keeps l k c start live steps) rest

/-- Where the slot loop of a command stands that began at sample `p` of an alert, in context `c₀`: as many samples on as slots are
filled, and those hold the stream's samples. -/
structure FilledTo (c₀ : Context) (n secs p : Nat) (l : SlotLoop) : Prop where
  place : ∃ k j, AlertAt n secs k j l.ctx ∧ position (headerLen n) secs k j = p + l.slot
  remaining : remainingSum c₀ = remainingSum l.ctx + l.slot
  encBytes : l.ctx.encBytes = c₀.encBytes
  filled : ∀ i < l.slot, i < 4096 → l.ctx.chunk[i]? = alertSample c₀.encBytes (headerLen n) secs (p + i)

/-- A slot step fills the next slot with the next sample. -/
theorem FilledTo.slotStep {c₀ : Context} {n secs p : Nat} {l : SlotLoop} {k' : Fin 14} {c : Context}
    (h : FilledTo c₀ n secs p l) (live : l.ctx.stage.live = some k') (steps : slotStep l.draws l.slot k' l.ctx = .ok c)
    (draws : Nat) : FilledTo c₀ n secs p ⟨c, l.slot + 1, draws⟩ := by
  obtain ⟨⟨k, j, place, at_p⟩, remaining, encBytes, filled⟩ := h
  obtain ⟨hk, hj⟩ | ⟨rfl, -⟩ := place.live_or_done
  · obtain rfl : k' = ⟨k, hk⟩ := Fin.ext (place.stage_of_live live)
    obtain ⟨v, c', sample, steps', -, stored, bytes, -, place'⟩ := slotStep_alertAt l.draws l.slot hk place
    obtain rfl : c' = c := by simpa [steps] using steps'.symm
    rw [← alertSample_position l.ctx.encBytes hk hj, at_p, encBytes] at sample
    refine ⟨⟨_, _, place', by rw [position_next hk hj, at_p]; rfl⟩, ?_, bytes.trans encBytes, fun i hi in_chunk => ?_⟩
    · rw [remaining, slotStep_ok_remainingSum steps (place.remaining_ne_zero hk)]
      exact Nat.succ_add_eq_add_succ _ _
    · dsimp only at hi ⊢
      rw [stored, Vector.getElem?_setIfInBounds]
      by_cases own : l.slot = i
      · rw [if_pos own, if_pos (own ▸ in_chunk), ← own, sample]
      · rw [if_neg own]
        exact filled i (by omega) in_chunk
  · exact absurd (place.stage_of_live live) k'.isLt.ne

/-- R162, R166, R167: a whole command from sample `p` of an alert fills `CHUNK`, or what is left of the alert. -/
theorem fillChunk_alertAt {s : State} {n secs k j : Nat} (place : AlertAt n secs k j s.ctx) :
    ∃ t, fillChunk s = .next t ∧ t.draws = s.draws ∧
      FilledTo s.ctx n secs (position (headerLen n) secs k j) ⟨t.ctx, t.count.toNat, t.draws⟩ ∧
      t.count.toNat = min 4096 (totalSamples (headerLen n) secs - position (headerLen n) secs k j) := by
  obtain ⟨m, -, -, loop, -, draws, ends⟩ := runSlots_alertAt 4096 (l := ⟨s.ctx, 0, s.draws⟩) place
  have start : FilledTo s.ctx n secs (position (headerLen n) secs k j) ⟨s.ctx, 0, s.draws⟩ :=
    ⟨⟨k, j, place, rfl⟩, rfl, rfl, fun i hi => absurd hi (Nat.not_lt_zero i)⟩
  have filled := runSlots_induction (fun l k c h live steps => h.slotStep live steps _) start loop
  obtain ⟨-, at_most, -⟩ := runSlots_frame loop
  have count : (BitVec.ofNat 13 m.slot).toNat = m.slot := by
    rw [BitVec.toNat_ofNat, Nat.mod_eq_of_lt (by dsimp only at at_most; omega)]
  refine ⟨{ s with ctx := m.ctx, count := BitVec.ofNat 13 m.slot, draws := m.draws },
    by simp only [fillChunk, Config.chunkCap, loop], draws, by rw [count]; exact filled, ?_⟩
  obtain ⟨k', j', place', at_end⟩ := filled.place
  have within := place'.position_le
  have done := place'.done_iff
  dsimp only at at_most ends ⊢
  rw [count]
  rcases ends with full | ended
  · omega
  · have := done.mp ended
    omega

/-! ### One command -/

/-- Settles O39: the frame of the slot loop. -/
theorem generateChunkFrame : Obligations.GenerateChunkFrame := by
  unfold Obligations.GenerateChunkFrame
  intro s t hs h
  obtain ⟨l, loop, rfl⟩ := fillChunk_next (hs.exec_generateChunk ▸ h)
  obtain ⟨-, -, encBytes, encLen, -⟩ := runSlots_frame loop
  exact ⟨rfl, encBytes, encLen⟩

/-- Settles O41: the slot loop does not see the input record. -/
theorem generationIgnoresTheInputRecord : Obligations.GenerationIgnoresTheInputRecord := by
  unfold Obligations.GenerationIgnoresTheInputRecord
  intro s t h hs ht _
  have hs' : State.generating { s with header := h } := ⟨hs.notFaulted, hs.hasContext, hs.notDone⟩
  obtain ⟨l, loop, rfl⟩ := fillChunk_next (hs.exec_generateChunk ▸ ht)
  rw [hs'.exec_generateChunk, fillChunk, Config.chunkCap, loop]

/-- Settles O37: from a live place some samples are left, and the command takes up to 4096 of them. -/
theorem generateChunkCompletes : Obligations.GenerateChunkCompletes := by
  unfold Obligations.GenerateChunkCompletes
  intro s inv hs
  obtain ⟨-, n, secs, k, j, place⟩ := inv.context hs.hasContext hs.notFaulted
  obtain ⟨t, completes, draws, filled, count⟩ := fillChunk_alertAt place
  obtain ⟨k', j', place', at_end⟩ := filled.place
  have within := place.position_le
  have left := mt place.done_iff.mpr hs.notDone
  have done := place'.done_iff
  dsimp only at at_end done
  refine ⟨t, hs.exec_generateChunk.trans completes, by omega, by omega, ?_, filled.remaining, draws⟩
  rcases Nat.lt_or_ge t.count.toNat 4096 with short | full
  · exact .inr (done.mpr (by omega))
  · exact .inl (by omega)

/-- R110, R115: no stage is shorter than a command. -/
theorem chunkCap_le_budget {encLen secs : Nat} (hl : 57 ≤ encLen) (hs : 1 ≤ secs) (k : Fin 14) :
    4096 ≤ budget encLen secs k := by
  rw [budget_eq]
  split_ifs <;> omega

/-- Settles O38: the slot loop never goes back, and 4096 samples do not pass a whole stage. -/
theorem stageOnlyMovesForward : Obligations.StageOnlyMovesForward := by
  unfold Obligations.StageOnlyMovesForward
  intro s t hs h
  rw [hs.exec_generateChunk] at h
  constructor
  · obtain ⟨l, loop, rfl⟩ := fillChunk_next h
    obtain ⟨-, -, -, -, forward, -⟩ := runSlots_frame loop
    exact forward
  · intro inv
    obtain ⟨-, n, secs, k, j, place⟩ := inv.context hs.hasContext hs.notFaulted
    obtain ⟨t', completes, -, filled, count⟩ := fillChunk_alertAt place
    obtain rfl : t = t' := by simpa [h] using completes
    obtain ⟨k', j', place', at_end⟩ := filled.place
    dsimp only at at_end place'
    rw [place.stage, place'.stage]
    by_contra passed
    obtain ⟨hk, hj⟩ | ⟨rfl, -⟩ := place.live_or_done
    · have hk1 : k + 1 < 14 := by have := place'.stage ▸ t.ctx.stage.index_le; omega
      have long := chunkCap_le_budget (headerLen_bounds place.codes).1 place.seconds.1 ⟨k + 1, hk1⟩
      have past := position_mono (encLen := headerLen n) (secs := secs) (show k + 2 ≤ k' by omega)
      rw [position_stage_succ hk1, position_stage_succ hk] at past
      rw [position_add j, position_add j'] at at_end
      omega
    · have := place'.stage ▸ t.ctx.stage.index_le
      omega

/-- Settles O42. -/
theorem completeAlertRegisters : Obligations.CompleteAlertRegisters := by
  unfold Obligations.CompleteAlertRegisters
  intro s inv configured ⟨done, clear⟩
  obtain ⟨-, n, secs, k, j, place⟩ := inv.context configured clear
  obtain ⟨counters, data, bit, sample, attn⟩ := place.registers_of_done done
  exact ⟨counters, data, bit, sample, secs, place.seconds.1, place.seconds.2, attn⟩

end Sys2Proof.Machine
end

section
/-! A whole alert: the loop of `RUN_ALERT` consumes the stream, command by command. -/

namespace Sys2Proof.Machine

/-- The machine stands at sample `p` of an alert with encoded header `enc`. `CHUNK` holds the last 4096 samples before it, each in
the slot of its number modulo 4096, since a command with samples left to emit starts at a multiple of 4096 (R166 to R168). -/
structure State.AlertRun (enc : Vector Byte 268) (n secs p : Nat) (s : State) : Prop where
  notFaulted : s.fault = false
  hasContext : s.configured = true
  encBytes : s.ctx.encBytes = enc
  place : ∃ k j, AlertAt n secs k j s.ctx ∧ position (headerLen n) secs k j = p
  aligned : p < totalSamples (headerLen n) secs → p % 4096 = 0
  window : ∀ q < p, p ≤ q + 4096 → s.ctx.chunk[q % 4096]? = alertSample enc (headerLen n) secs q

/-- `CONFIGURE` starts an alert at its first sample. -/
theorem State.configurable.alertRun {s : State} (hs : s.configurable) :
    State.AlertRun (configuredContext Config.startCodeDash s.header s.locations).encBytes s.locations
      s.header.attnSeconds.toNat 0
      (markConfigured { s with ctx := configuredContext Config.startCodeDash s.header s.locations }) where
  notFaulted := (markConfigured_fault _).trans hs.notFaulted
  hasContext := rfl
  encBytes := rfl
  place := ⟨0, 0, configuredContext_alertAt s.header hs.locations_bounds hs.timed, by simp [position]⟩
  aligned _ := rfl
  window q hq := absurd hq (Nat.not_lt_zero q)

section run
variable {enc : Vector Byte 268} {n secs p : Nat} {s : State} (run : s.AlertRun enc n secs p)
include run

theorem State.AlertRun.done_iff : s.ctx.stage = .done ↔ p = totalSamples (headerLen n) secs := by
  obtain ⟨k, j, place, rfl⟩ := run.place
  exact place.done_iff

/-- R203: what the host consumes after a command of `c` slots is the `c` samples before the place reached. -/
theorem State.AlertRun.consumeChunk_getElem? {m : Nat} (hm : m < s.count.toNat) (cap : s.count.toNat ≤ 4096)
    (start : p % 4096 = s.count.toNat % 4096) (reached : s.count.toNat ≤ p) :
    (consumeChunk s)[m]? = alertSample enc (headerLen n) secs (p - s.count.toNat + m) := by
  have stands := run.window (p - s.count.toNat + m) (by omega) (by omega)
  rw [show (p - s.count.toNat + m) % 4096 = m by omega] at stands
  rw [← stands, consumeChunk, List.getElem?_take_of_lt hm, Vector.getElem?_toList]

/-- One `GENERATE_CHUNK` of an alert: 4096 samples on, or to its end. -/
theorem State.AlertRun.exec_generateChunk (left : p < totalSamples (headerLen n) secs) :
    ∃ t, exec .generateChunk s = .next t ∧ t.count.toNat = min 4096 (totalSamples (headerLen n) secs - p) ∧
      t.AlertRun enc n secs (p + t.count.toNat) := by
  have generating : s.generating := ⟨run.notFaulted, run.hasContext, fun done => left.ne (run.done_iff.mp done)⟩
  obtain ⟨k, j, place, rfl⟩ := run.place
  obtain ⟨t, completes, -, filled, count⟩ := fillChunk_alertAt place
  have next := generating.exec_generateChunk.trans completes
  obtain ⟨frame, bytes, -⟩ := generateChunkFrame s t generating next
  have tail := unfilledTailIsKept s t generating next
  have aligned := run.aligned left
  have start : t.fault = s.fault ∧ t.configured = s.configured := by rw [frame]; exact ⟨rfl, rfl⟩
  refine ⟨t, next, count, start.1.trans run.notFaulted, start.2.trans run.hasContext, bytes.trans run.encBytes, filled.place,
    fun more => by omega, fun q hq recent => ?_⟩
  rcases Nat.lt_or_ge q (position (headerLen n) secs k j) with old | new
  · rw [← run.window q old (by omega)]
    have kept := tail ⟨q % 4096, Nat.mod_lt _ (by decide)⟩ (show t.count.toNat ≤ q % 4096 by omega)
    rw [Vector.getElem?_eq_getElem (Nat.mod_lt _ (by decide)), Vector.getElem?_eq_getElem (Nat.mod_lt _ (by decide))]
    exact congrArg some kept
  · obtain ⟨i, rfl⟩ := Nat.exists_eq_add_of_le new
    rw [show (position (headerLen n) secs k j + i) % 4096 = i by omega, ← run.encBytes]
    exact filled.filled i (show i < t.count.toNat by omega) (by omega)

end run

theorem consumeChunk_length {s : State} (cap : s.count.toNat ≤ 4096) : (consumeChunk s).length = s.count.toNat := by
  simp [consumeChunk, cap]

/-- The loop of `RUN_ALERT` from sample `p` of an alert: it reaches the end of the alert in just the commands that takes, and the
host has consumed the rest of the stream. By induction on the number of commands. -/
theorem drainAlert_alertRun {enc : Vector Byte 268} {n secs p : Nat} {s : State} (fuel : Nat)
    (enough : fuel = (totalSamples (headerLen n) secs - p + 4095) / 4096) (left : p < totalSamples (headerLen n) secs)
    (run : s.AlertRun enc n secs p) :
    ∃ u out, drainAlert fuel s = .next (u, out) ∧ u.AlertRun enc n secs (totalSamples (headerLen n) secs) ∧
      u.count.toNat = (if totalSamples (headerLen n) secs % 4096 = 0 then 4096 else totalSamples (headerLen n) secs % 4096) ∧
      out.length = totalSamples (headerLen n) secs - p ∧
      ∀ m < totalSamples (headerLen n) secs - p, out[m]? = alertSample enc (headerLen n) secs (p + m) := by
  induction fuel generalizing p s with
  | zero => omega
  | succ fuel ih =>
    have aligned := run.aligned left
    obtain ⟨t, next, count, run'⟩ := run.exec_generateChunk left
    have consumed {m : Nat} (hm : m < t.count.toNat) : (consumeChunk t)[m]? = alertSample enc (headerLen n) secs (p + m) := by
      have stream := run'.consumeChunk_getElem? hm (by omega) (by omega) (Nat.le_add_left _ _)
      rwa [Nat.add_sub_cancel_right] at stream
    have length := consumeChunk_length (s := t) (by omega)
    by_cases done : t.ctx.stage = .done
    · have ended := run'.done_iff.mp done
      refine ⟨t, consumeChunk t, by simp only [drainAlert, next, done, if_true], ended ▸ run', ?_, by omega, fun m hm => ?_⟩
      · split_ifs <;> omega
      · exact consumed (by omega)
    · have left' : p + t.count.toNat < totalSamples (headerLen n) secs := by
        obtain ⟨k, j, place, at_p⟩ := run'.place
        have within := place.position_le
        have := mt run'.done_iff.mpr done
        omega
      obtain ⟨u, out, drained, run_u, count_u, length_u, stream_u⟩ := ih (by omega) left' run'
      refine ⟨u, consumeChunk t ++ out, by simp only [drainAlert, next, done, if_false, drained], run_u, count_u, ?_,
        fun m hm => ?_⟩
      · rw [List.length_append, length, length_u]
        omega
      · rcases Nat.lt_or_ge m t.count.toNat with early | late
        · rw [List.getElem?_append_left (length ▸ early), consumed early]
        · rw [List.getElem?_append_right (length ▸ late), length, stream_u _ (by omega)]
          congr 1
          omega

/-- R110, in the numbers of the spec. -/
theorem totalSamples_eq (encLen secs : Nat) : totalSamples encLen secs = 2040 * encLen + 349500 + 44100 * secs :=
  totalIsTheSumOfTheBudgets encLen secs

/-- The length of the alert that the input record configures: `TOTAL` (R110). -/
def State.alertLength (s : State) : Nat := totalSamples (headerLen s.locations) s.header.attnSeconds.toNat

theorem State.alertLength_eq (s : State) :
    s.alertLength = 2040 * (50 + 7 * s.locations) + 349500 + 44100 * s.header.attnSeconds.toNat := totalSamples_eq _ _

/-- `RUN_ALERT` from a core that `CONFIGURE` does not fault in: it ends at the end of the alert, the whole stream consumed. -/
theorem State.configurable.runAlert {s : State} (hs : s.configurable) :
    ∃ enc u out, runAlert ((s.alertLength + 4095) / 4096) s = .next (u, out) ∧
      u.AlertRun enc s.locations s.header.attnSeconds.toNat s.alertLength ∧
      u.count.toNat = (if s.alertLength % 4096 = 0 then 4096 else s.alertLength % 4096) ∧ out.length = s.alertLength ∧
      ∀ m < s.alertLength, out[m]? = alertSample enc (headerLen s.locations) s.header.attnSeconds.toNat m := by
  have some_samples : 0 < s.alertLength := by rw [s.alertLength_eq]; omega
  obtain ⟨u, out, drained, run, count, length, stream⟩ := drainAlert_alertRun _ rfl some_samples hs.alertRun
  simp only [Nat.sub_zero, Nat.zero_add] at drained length stream
  exact ⟨_, u, out, by simp only [Machine.runAlert, hs.exec_configure, State.alertLength, drained], run, count, length,
    stream⟩

/-- Settles O43. -/
theorem alertEmitsTheStream : Obligations.AlertEmitsTheStream := by
  unfold Obligations.AlertEmitsTheStream
  intro s hs
  obtain ⟨enc, u, out, completes, run, count, length, stream⟩ := hs.runAlert
  obtain ⟨k, j, place, -⟩ := run.place
  have done := run.done_iff.mpr rfl
  obtain ⟨-, -, -, -, attn⟩ := place.registers_of_done done
  rw [s.alertLength_eq] at completes count length stream
  exact ⟨u, out, completes, done, run.notFaulted, count, length, attn, run.encBytes ▸ stream⟩

/-- Settles O44: the window at the end of an alert lies within its last second. -/
theorem staleTailIsSilence : Obligations.StaleTailIsSilence := by
  unfold Obligations.StaleTailIsSilence
  intro s hs
  obtain ⟨enc, u, out, completes, run, -⟩ := hs.runAlert
  have length := s.alertLength_eq
  refine ⟨u, out, length ▸ completes, fun i => ?_⟩
  obtain ⟨q, slot, within, recent⟩ : ∃ q : Nat, q % 4096 = i.val ∧ q < s.alertLength ∧ s.alertLength ≤ q + 4096 :=
    ⟨i + 4096 * ((s.alertLength - 1 - i) / 4096), by omega, by omega, by omega⟩
  have stands := run.window q within recent
  rw [slot, alertSample_last_second enc (Nat.le_trans recent (by omega)) within] at stands
  exact (Vector.getElem?_eq_some_iff.mp stands).2

end Sys2Proof.Machine
end

section
/-! The host's side: a register write, the actions of `LOAD_HEADER`, and the byte view of `CHUNK`. -/

namespace Sys2Proof.Machine

/-! ### One register write (R21) -/

theorem getElem_set_of_ne {α : Type} {n : Nat} (xs : Vector α n) (x : α) {i j : Fin n} (ne : j ≠ i) :
    (xs.set i x)[j] = xs[j] :=
  Vector.getElem_set_ne i.isLt j.isLt fun same => ne (Fin.ext same.symm)

@[simp] theorem readAh_writeAh_same (h : AlertHeader) (r : AhReg) (v : Byte) : readAh (writeAh h r v) r = v := by
  cases r <;> simp [readAh, writeAh]

/-- A write of one byte leaves every other byte: of another field because that is another field of the record, of the same field
because it is another element. -/
theorem readAh_writeAh_of_ne (h : AlertHeader) {r r' : AhReg} (v : Byte) (ne : r' ≠ r) :
    readAh (writeAh h r v) r' = readAh h r' := by
  cases r with
  | org i => cases r' with
    | org j => exact getElem_set_of_ne h.org v fun same => ne (same ▸ rfl)
    | _ => rfl
  | evt i => cases r' with
    | evt j => exact getElem_set_of_ne h.evt v fun same => ne (same ▸ rfl)
    | _ => rfl
  | loc k i => cases r' with
    | loc l j =>
      by_cases entry : l = k
      · subst entry
        have byte : (h.loc[l].set i v)[j] = h.loc[l][j] := getElem_set_of_ne _ v fun same => ne (same ▸ rfl)
        simpa [readAh, writeAh] using byte
      · exact congrArg (·[j]) (getElem_set_of_ne h.loc _ entry)
    | _ => rfl
  | vtp i => cases r' with
    | vtp j => exact getElem_set_of_ne h.vtp v fun same => ne (same ▸ rfl)
    | _ => rfl
  | otime i => cases r' with
    | otime j => exact getElem_set_of_ne h.otime v fun same => ne (same ▸ rfl)
    | _ => rfl
  | call i => cases r' with
    | call j => exact getElem_set_of_ne h.call v fun same => ne (same ▸ rfl)
    | _ => rfl
  | attnSeconds => cases r' with
    | attnSeconds => exact absurd rfl ne
    | _ => rfl

theorem step_of_write {s : State} {r : AhReg} {v : Byte} {rest : List HostAction} (h : s.atRest)
    (hi : s.inbox = .write r v :: rest) : step s = .next { s with header := writeAh s.header r v, inbox := rest } :=
  step_of_inbox_cons h hi

/-- Settles O50. -/
theorem hostWriteChangesOneRegister : Obligations.HostWriteChangesOneRegister := by
  unfold Obligations.HostWriteChangesOneRegister
  intro s r v rest atRest inbox
  exact ⟨_, step_of_write atRest inbox, readAh_writeAh_same _ r v, fun r' ne => readAh_writeAh_of_ne _ v ne, rfl⟩

/-! ### A run of register writes -/

/-- A list of register writes, each a register and the byte for it, as host actions. -/
def writes (ws : List (AhReg × Byte)) : List HostAction := ws.map fun w => .write w.1 w.2

/-- The input record after the writes. -/
def writeAll (h : AlertHeader) (ws : List (AhReg × Byte)) : AlertHeader := ws.foldl (fun h w => writeAh h w.1 w.2) h

theorem run_succ_of_step {M : Host.Core} {k : Nat} {s t : M.State} (h : M.step s = .next t) :
    M.run (k + 1) s = M.run k t := by
  rw [Host.Core.run, h]

/-- As many steps as writes in the queue perform them and nothing else. -/
theorem run_writes (ws : List (AhReg × Byte)) {s : State} {rest : List HostAction} (atRest : s.atRest)
    (inbox : s.inbox = writes ws ++ rest) :
    Host.Core.run core (writes ws).length s = .next { s with header := writeAll s.header ws, inbox := rest } := by
  induction ws generalizing s with
  | nil => exact congrArg Host.Outcome.next (by rw [← show s.inbox = rest from inbox]; rfl)
  | cons w ws ih =>
    have first : core.step s = .next { s with header := writeAh s.header w.1 w.2, inbox := writes ws ++ rest } :=
      step_of_write atRest inbox
    exact (run_succ_of_step first).trans (ih atRest rfl)

/-- Where the writes to a register all give it the same byte, and there is such a write or the byte stood there before, the register
holds that byte. -/
theorem readAh_writeAll_of_only {ws : List (AhReg × Byte)} {h : AlertHeader} {r : AhReg} {v : Byte}
    (only : ∀ v', (r, v') ∈ ws → v' = v) (written : (∃ v', (r, v') ∈ ws) ∨ readAh h r = v) :
    readAh (writeAll h ws) r = v := by
  induction ws generalizing h with
  | nil =>
    obtain ⟨v', none⟩ | holds := written
    · simp at none
    · exact holds
  | cons w ws ih =>
    refine ih (h := writeAh h w.1 w.2) (fun v' later => only v' (List.mem_cons_of_mem _ later)) ?_
    by_cases here : r = w.1
    · have value := only w.2 (by rw [here]; exact List.mem_cons_self)
      exact .inr (by rw [here, readAh_writeAh_same, value])
    · refine written.imp (fun ⟨v', hv'⟩ => ⟨v', ?_⟩) fun holds => by rw [readAh_writeAh_of_ne h _ here, holds]
      exact (List.mem_cons.mp hv').resolve_left fun same => here (congrArg Prod.fst same)

/-- Where the writes give a register at most one byte, it then holds that byte, or what it held before. -/
theorem readAh_writeAll {ws : List (AhReg × Byte)} {r : AhReg} {byte : Option Byte} (h : AlertHeader)
    (given : ∀ v, (r, v) ∈ ws ↔ byte = some v) : readAh (writeAll h ws) r = byte.getD (readAh h r) := by
  cases byte with
  | none => exact readAh_writeAll_of_only (fun v' hv' => by simpa using (given v').mp hv') (.inr rfl)
  | some v =>
    exact readAh_writeAll_of_only (fun v' hv' => by simpa [eq_comm] using (given v').mp hv') (.inl ⟨v, (given v).mpr rfl⟩)

/-! ### LOAD_HEADER (R83) -/

section load
variable (org evt : Vector Byte 3) (locs : List (Vector Byte 6)) (vtp : Vector Byte 4) (otime : Vector Byte 7)
  (call : Vector Byte 8) (secs : BitVec 8)

/-- The writes of one field, byte by byte, and those of the location entries. -/
def fieldWrites {w : Nat} (reg : Fin w → AhReg) (field : Vector Byte w) : List (AhReg × Byte) :=
  (List.finRange w).map fun i => (reg i, field[i])
def locsWrites : List (AhReg × Byte) :=
  ((List.finRange 31).zip locs).flatMap (fun p => fieldWrites (.loc p.1) p.2) ++
    (if h : locs.length < 31 then fieldWrites (.loc ⟨locs.length, h⟩) Config.locEndMarker else [])

/-- The register writes of `LOAD_HEADER`. -/
def loadWrites : List (AhReg × Byte) :=
  fieldWrites .org org ++ fieldWrites .evt evt ++ locsWrites locs ++ fieldWrites .vtp vtp ++ fieldWrites .otime otime ++
    fieldWrites .call call ++ [(.attnSeconds, secs)]

theorem writes_append (ws ws' : List (AhReg × Byte)) : writes (ws ++ ws') = writes ws ++ writes ws' := List.map_append

theorem writes_fieldWrites {w : Nat} (reg : Fin w → AhReg) (field : Vector Byte w) :
    writes (fieldWrites reg field) = (List.finRange w).map fun i => .write (reg i) field[i] := List.map_map

theorem writeLocs_eq_writes : writeLocs locs = writes (locsWrites locs) := by
  rw [writeLocs, locsWrites, writes_append]
  congr 1
  · simp only [writes, List.map_flatMap]
    exact congrArg (List.flatMap · _) (funext fun p => (writes_fieldWrites (.loc p.1) p.2).symm)
  · split_ifs
    · exact (writes_fieldWrites _ _).symm
    · rfl

theorem loadHeader_eq_writes :
    loadHeader org evt locs vtp otime call secs = writes (loadWrites org evt locs vtp otime call secs) := by
  simp only [loadHeader, loadWrites, writes_append, writes_fieldWrites, writeLocs_eq_writes]
  rfl

/-- The byte `LOAD_HEADER` writes to a register, if any: of the location entries, to the codes and the marker behind them. -/
def loadedByte : AhReg → Option Byte
  | .org i => some org[i]
  | .evt i => some evt[i]
  | .loc k i => (locs ++ [Config.locEndMarker])[k.val]?.map (·[i])
  | .vtp i => some vtp[i]
  | .otime i => some otime[i]
  | .call i => some call[i]
  | .attnSeconds => some secs

theorem mem_fieldWrites {w : Nat} {reg : Fin w → AhReg} {field : Vector Byte w} {r : AhReg} {v : Byte} :
    (r, v) ∈ fieldWrites reg field ↔ ∃ i, reg i = r ∧ field[i] = v := by
  simp [fieldWrites]

theorem mem_locWrites {k l : Fin 31} {i : Fin 6} {code : Vector Byte 6} {v : Byte} :
    (AhReg.loc l i, v) ∈ fieldWrites (.loc k) code ↔ k = l ∧ code[i] = v := by
  simp [mem_fieldWrites, and_assoc]

theorem mem_zip_finRange {k : Fin 31} {code : Vector Byte 6} :
    (k, code) ∈ (List.finRange 31).zip locs ↔ locs[k.val]? = some code := by
  rw [List.mem_iff_getElem?]
  constructor
  · rintro ⟨i, hi⟩
    obtain ⟨entry, code_at⟩ := List.getElem?_zip_eq_some.mp hi
    obtain ⟨_, same⟩ := List.getElem?_eq_some_iff.mp entry
    rw [← show i = k.val by simpa using congrArg Fin.val same]
    exact code_at
  · intro code_at
    exact ⟨k.val, List.getElem?_zip_eq_some.mpr ⟨by simp, code_at⟩⟩

theorem mem_locsWrites {k : Fin 31} {i : Fin 6} {v : Byte} :
    (AhReg.loc k i, v) ∈ locsWrites locs ↔ (locs ++ [Config.locEndMarker])[k.val]?.map (·[i]) = some v := by
  have codes : (AhReg.loc k i, v) ∈ ((List.finRange 31).zip locs).flatMap (fun p => fieldWrites (.loc p.1) p.2) ↔
      locs[k.val]?.map (·[i]) = some v := by
    simp only [List.mem_flatMap, Prod.exists, mem_locWrites, Option.map_eq_some_iff]
    constructor
    · rintro ⟨k', code, at_k, rfl, byte⟩
      exact ⟨code, (mem_zip_finRange locs).mp at_k, byte⟩
    · rintro ⟨code, at_k, byte⟩
      exact ⟨k, code, (mem_zip_finRange locs).mpr at_k, rfl, byte⟩
  rw [locsWrites, List.mem_append, codes]
  rcases Nat.lt_trichotomy k.val locs.length with before | ends | after
  · rw [List.getElem?_append_left before]
    refine or_iff_left fun marker => ?_
    split_ifs at marker with short
    · exact before.ne' (congrArg Fin.val (mem_locWrites.mp marker).1)
    · simp at marker
  · have short : locs.length < 31 := ends ▸ k.isLt
    rw [dif_pos short, mem_locWrites, ends]
    simp [Fin.ext_iff, ends]
  · have short : locs.length < 31 := after.trans k.isLt
    rw [dif_pos short, mem_locWrites, List.getElem?_eq_none after.le, List.getElem?_eq_none (by simpa using after)]
    simp [Fin.ext_iff, after.ne]

/-- `LOAD_HEADER` writes each register at most once. -/
theorem mem_loadWrites {r : AhReg} {v : Byte} :
    (r, v) ∈ loadWrites org evt locs vtp otime call secs ↔ loadedByte org evt locs vtp otime call secs r = some v := by
  have loc_only {r : AhReg} (other : ∀ k i, .loc k i ≠ r) : (r, v) ∉ locsWrites locs := by
    intro mem
    rw [locsWrites, List.mem_append, List.mem_flatMap] at mem
    obtain ⟨p, -, mem⟩ | mem := mem
    · obtain ⟨i, same, -⟩ := mem_fieldWrites.mp mem
      exact other _ i same
    · split_ifs at mem
      · obtain ⟨i, same, -⟩ := mem_fieldWrites.mp mem
        exact other _ i same
      · simp at mem
  cases r with
  | loc k i => simp [loadWrites, loadedByte, mem_fieldWrites, mem_locsWrites]
  | _ => simp [loadWrites, loadedByte, mem_fieldWrites, loc_only, eq_comm]

/-- The location entries after `LOAD_HEADER`: the codes, the marker behind them, and the entries above it as they were. -/
theorem loc_writeAll_loadWrites (h : AlertHeader) (k : Fin 31) :
    (writeAll h (loadWrites org evt locs vtp otime call secs)).loc[k] =
      (locs ++ [Config.locEndMarker])[k.val]?.getD h.loc[k] := by
  refine Vector.ext fun i hi => ?_
  have byte := readAh_writeAll (r := .loc k ⟨i, hi⟩) h fun v => mem_loadWrites org evt locs vtp otime call secs
  refine byte.trans ?_
  rcases entry : (locs ++ [Config.locEndMarker])[k.val]? with - | code <;> simp only [loadedByte, entry] <;> rfl
end load

/-- Settles O51: the queue of `LOAD_HEADER` is a run of writes, and each register holds the byte written to it. -/
theorem loadHeaderLoadsTheRecord : Obligations.LoadHeaderLoadsTheRecord := by
  unfold Obligations.LoadHeaderLoadsTheRecord
  intro s org evt locs vtp otime call secs rest _ atRest inbox
  rw [loadHeader_eq_writes] at inbox ⊢
  have loaded (r : AhReg) := readAh_writeAll (r := r) s.header fun v => mem_loadWrites org evt locs vtp otime call secs
  have loc := loc_writeAll_loadWrites org evt locs vtp otime call secs s.header
  refine ⟨_, run_writes _ atRest inbox, ?_, ?_, ?_, ?_, ?_, loaded .attnSeconds, fun k before => ?_, fun k ends => ?_,
    fun k after => ?_, rfl⟩
  · exact Vector.ext fun i hi => loaded (.org ⟨i, hi⟩)
  · exact Vector.ext fun i hi => loaded (.evt ⟨i, hi⟩)
  · exact Vector.ext fun i hi => loaded (.vtp ⟨i, hi⟩)
  · exact Vector.ext fun i hi => loaded (.otime ⟨i, hi⟩)
  · exact Vector.ext fun i hi => loaded (.call ⟨i, hi⟩)
  · rw [loc, List.getElem?_append_left before, List.getElem?_eq_getElem before]
    rfl
  · have marker : (locs ++ [Config.locEndMarker])[k.val]? = some Config.locEndMarker := by simp [ends]
    rw [loc, marker]
    rfl
  · rw [loc, List.getElem?_eq_none (by simpa using after)]
    rfl

/-! ### The byte view of CHUNK (R51) -/

/-- Settles O52: byte `2i` is the low half of slot `i`, byte `2i+1` the slot shifted down by 8. -/
theorem samplesAreLittleEndian : Obligations.SamplesAreLittleEndian := by
  unfold Obligations.SamplesAreLittleEndian
  intro c i
  have low : 2 * i.val / 2 = i ∧ 2 * i.val % 2 = 0 := by omega
  have high : (2 * i.val + 1) / 2 = i ∧ (2 * i.val + 1) % 2 = 1 := by omega
  have slot : c.chunk[i.val]? = some c.chunk[i] := Vector.getElem?_eq_getElem i.isLt
  constructor
  · rw [chunkByte, low.1, low.2, slot]
    exact congrArg some (BitVec.eq_of_toNat_eq (by simp))
  · rw [chunkByte, high.1, high.2, slot]
    exact congrArg some (BitVec.eq_of_toNat_eq (by simp))

end Sys2Proof.Machine
end

section
/-! The conversion `TO_S16` and the sine: what a sample can be (R14, R15). -/

namespace Sys2Proof.Machine

/-- A magnitude with a sign. -/
def signed (neg : Bool) (n : Nat) : Int := if neg then -(n : Int) else (n : Int)

theorem f32Int_eq_signed (x : F32) : f32Int x = signed (f32Neg x) (f32Units x) := rfl

@[simp] theorem natAbs_signed (neg : Bool) (n : Nat) : (signed neg n).natAbs = n := by cases neg <;> simp [signed]

/-- The integer nearest to `units` units of 2^-149, half-way cases up. -/
def nearestUp (units : Nat) : Nat := (2 ^ 149 + 2 * units) / 2 ^ 150

theorem toInt_ofInt_signed (neg : Bool) {k : Nat} (hk : k ≤ 32767) : (BitVec.ofInt 16 (signed neg k)).toInt = signed neg k := by
  rw [BitVec.toInt_ofInt]
  unfold signed
  split <;> rw [Int.bmod_eq_of_le] <;> omega

/-- R14: the conversion of a number of magnitude at most 32767. -/
theorem toS16_of_le {y : F32} (finite : f32Finite y = true) (bounded : f32Units y ≤ 32767 * 2 ^ 149) :
    ∃ v, toS16 y = some v ∧ v.toInt = signed (f32Neg y) (nearestUp (f32Units y)) ∧ nearestUp (f32Units y) ≤ 32767 := by
  have small : nearestUp (f32Units y) ≤ 32767 := by unfold nearestUp; omega
  refine ⟨_, ?_, toInt_ofInt_signed (f32Neg y) small, small⟩
  rw [toS16, if_pos (by rw [finite]; simpa using bounded)]
  rfl

/-- R14: the conversion of anything else is not defined. -/
theorem toS16_eq_none {y : F32} (h : f32Finite y = false ∨ 32767 * 2 ^ 149 < f32Units y) : toS16 y = none := by
  refine if_neg fun inside => ?_
  obtain ⟨finite, bounded⟩ : f32Finite y = true ∧ f32Units y ≤ 32767 * 2 ^ 149 := by simpa using inside
  rcases h with infinite | large
  · simp [finite] at infinite
  · exact absurd bounded (Nat.not_le.mpr large)

/-- Settles O55: the nearest integer on magnitudes, the sign carried along. -/
theorem sampleConversionIsNearestTiesAway : Obligations.SampleConversionIsNearestTiesAway := by
  unfold Obligations.SampleConversionIsNearestTiesAway
  refine fun y => ⟨fun finite bounded => ?_, toS16_eq_none⟩
  obtain ⟨v, converts, value, -⟩ := toS16_of_le finite bounded
  refine ⟨v, converts, ?_⟩
  rw [value, f32Int_eq_signed]
  unfold nearestUp signed
  split <;> omega

theorem toS16_range {y : F32} {v : Sample} (h : toS16 y = some v) : -32767 ≤ v.toInt ∧ v.toInt ≤ 32767 := by
  by_cases inside : f32Finite y = true ∧ f32Units y ≤ 32767 * 2 ^ 149
  · obtain ⟨v', converts, value, small⟩ := toS16_of_le inside.1 inside.2
    obtain rfl : v' = v := by simpa [h] using converts.symm
    have magnitude := natAbs_signed (f32Neg y) (nearestUp (f32Units y))
    rw [value]
    omega
  · rw [toS16_eq_none (by simpa [or_iff_not_imp_left] using inside)] at h
    simp at h

/-- Settles O32: a sample is 0 or an answer of `TO_S16`. -/
theorem samplesStayInRange : Obligations.SamplesStayInRange := by
  unfold Obligations.SamplesStayInRange
  intro i s t v hi h returned
  obtain ⟨v', c, run, rfl⟩ := exec_micro_next hi h
  obtain rfl : v' = v := SynthPort.emitted.inj returned
  rcases runSynth_sample run with rfl | ⟨y, converted⟩
  · decide
  · exact toS16_range converted

/-- Settles O56: the narrowing changes only what an admissible sine is not. -/
theorem sineIsAnyAdmissibleFunction : Obligations.SineIsAnyAdmissibleFunction := by
  unfold Obligations.SineIsAnyAdmissibleFunction
  refine ⟨⟨sin32_zero, fun x finite => ?_⟩, fun f zero bounded => funext fun x => ?_⟩
  · have one := sin32_bounded finite
    exact ⟨f32Finite_iff.mpr (lt_of_le_of_lt one (by decide)), one⟩
  · unfold admissibleSin
    split_ifs with isZero large
    · rw [isZero, zero]
    · obtain ⟨finite, exceeds⟩ : f32Finite x = true ∧ withinOne (f x) = false := by simpa using large
      have within : withinOne (f x) = true := decide_eq_true (bounded x finite).2
      simp [exceeds] at within
    · rfl

end Sys2Proof.Machine
end

section
/-! The rounding `fl32` (R13, D23): to the nearest pattern, ties to even, and to infinity from the half-way point past the largest
finite value on. -/

namespace Sys2Proof.Machine

/-! ### The nearest multiple -/

/-- How far `u` units lie from `num / den` units, in `den`ths of a unit. -/
def gap (num den u : Nat) : Nat := ((u * den : Nat) - (num : Int)).natAbs

theorem gap_mul (num den u e : Nat) : gap num den (u * 2 ^ e) = gap num (den * 2 ^ e) u := by
  rw [gap, gap, Nat.mul_assoc, Nat.mul_comm den]

@[simp] theorem gap_zero (num den : Nat) : gap num den 0 = num := by simp [gap]

/-- Down below the half-way case, up above it, and at it to the even one. -/
theorem nearestEven_cases (num den : Nat) :
    (nearestEven num den = num / den ∧
      (2 * (num % den) < den ∨ 2 * (num % den) = den ∧ nearestEven num den % 2 = 0)) ∨
    (nearestEven num den = num / den + 1 ∧
      (den < 2 * (num % den) ∨ 2 * (num % den) = den ∧ nearestEven num den % 2 = 0)) := by
  unfold nearestEven
  dsimp only
  split_ifs <;> omega

/-- `nearestEven` lies within half a place, and exactly half a place off only when it is even. -/
theorem nearestEven_gap (num : Nat) {den : Nat} (hd : 0 < den) :
    2 * gap num den (nearestEven num den) ≤ den ∧
      (2 * gap num den (nearestEven num den) = den → nearestEven num den % 2 = 0) := by
  have parts := Nat.div_add_mod' num den
  have rem := Nat.mod_lt num hd
  obtain ⟨down, side⟩ | ⟨up, side⟩ := nearestEven_cases num den
  · have off : gap num den (nearestEven num den) = num % den := by
      rw [gap, down]
      omega
    rw [off]
    omega
  · have off : gap num den (nearestEven num den) = den - num % den := by
      rw [gap, up, Nat.succ_mul]
      omega
    rw [off]
    omega

/-- Different multiples lie a whole place apart. -/
theorem den_le_gap_add_gap (num : Nat) {den m z : Nat} (ne : z ≠ m) : den ≤ gap num den m + gap num den z := by
  have apart : den ≤ ((z * den : Nat) - ((m * den : Nat) : Int)).natAbs := by
    push_cast
    rw [← sub_mul, Int.natAbs_mul, Int.natAbs_natCast]
    exact Nat.le_mul_of_pos_left _ (by omega)
  unfold gap
  omega

/-- `nearestEven` is the nearest integer, and even where another is as near. -/
theorem nearestEven_nearest (num : Nat) {den : Nat} (hd : 0 < den) (z : Nat) :
    gap num den (nearestEven num den) ≤ gap num den z ∧
      (gap num den (nearestEven num den) = gap num den z → z ≠ nearestEven num den → nearestEven num den % 2 = 0) := by
  obtain ⟨half, tie⟩ := nearestEven_gap num hd
  by_cases same : z = nearestEven num den
  · exact ⟨same ▸ le_rfl, fun _ ne => absurd same ne⟩
  · have apart := den_le_gap_add_gap num (den := den) same
    exact ⟨by omega, fun equal _ => tie (by omega)⟩

/-- Rounding stays below an even number exactly up to the half-way point before it, which goes to that number. -/
theorem nearestEven_lt_iff (num : Nat) {den top : Nat} (hd : 0 < den) (even : top % 2 = 0) :
    nearestEven num den < top ↔ 2 * num + den < 2 * (top * den) := by
  obtain ⟨half, tie⟩ := nearestEven_gap num hd
  unfold gap at half tie
  generalize nearestEven num den = m at *
  constructor
  · intro below
    have scaled : (m + 1) * den ≤ top * den := Nat.mul_le_mul_right _ below
    rw [Nat.succ_mul] at scaled
    have odd_last : m * den + den = top * den → m % 2 = 1 := fun equal => by
      have := Nat.eq_of_mul_eq_mul_right hd ((Nat.succ_mul m den).trans equal)
      omega
    omega
  · intro before
    by_contra reached
    have scaled : top * den ≤ m * den := Nat.mul_le_mul_right _ (Nat.le_of_not_lt reached)
    omega

theorem div_le_nearestEven (num den : Nat) : num / den ≤ nearestEven num den := by
  unfold nearestEven
  dsimp only
  split_ifs <;> omega

theorem nearestEven_mul {den : Nat} (hd : 0 < den) (k : Nat) : nearestEven (den * k) den = k := by
  simp [nearestEven, hd, Nat.mul_div_cancel_left k hd]

/-! ### Patterns on the grid of a last place -/

theorem patternUnits_lt_succ (p : Nat) : patternUnits p < patternUnits (p + 1) := by
  unfold patternUnits
  by_cases subnormal : p + 1 < 2 ^ 23
  · rw [if_pos (by omega), if_pos subnormal]
    omega
  · rw [if_neg subnormal]
    by_cases last : p < 2 ^ 23
    · obtain rfl : p = 2 ^ 23 - 1 := by omega
      decide
    · rw [if_neg last]
      by_cases carries : (p + 1) % 2 ^ 23 = 0
      · rw [carries, show p % 2 ^ 23 = 2 ^ 23 - 1 by omega, show (p + 1) / 2 ^ 23 - 1 = p / 2 ^ 23 - 1 + 1 by omega,
          pow_succ 2 (p / 2 ^ 23 - 1)]
        have := Nat.two_pow_pos (p / 2 ^ 23 - 1)
        generalize 2 ^ (p / 2 ^ 23 - 1) = place at *
        omega
      · rw [show (p + 1) % 2 ^ 23 = p % 2 ^ 23 + 1 by omega, show (p + 1) / 2 ^ 23 = p / 2 ^ 23 by omega]
        exact Nat.mul_lt_mul_of_pos_right (by omega) (Nat.two_pow_pos _)

theorem patternUnits_injective : Function.Injective patternUnits := (strictMono_nat_of_lt_succ patternUnits_lt_succ).injective

/-- Every pattern is a multiple of a place or lies below the significands that have it as their last. -/
theorem patternUnits_grid (p e : Nat) :
    (∃ z, patternUnits p = z * 2 ^ e) ∨ (0 < e ∧ patternUnits p < 2 ^ 23 * 2 ^ e) := by
  unfold patternUnits
  split_ifs with subnormal
  · rcases Nat.eq_zero_or_pos e with rfl | above
    · exact .inl ⟨p, by simp⟩
    · exact .inr ⟨above, lt_of_lt_of_le subnormal (Nat.le_mul_of_pos_right _ (Nat.two_pow_pos e))⟩
  · generalize p / 2 ^ 23 - 1 = a
    rcases Nat.lt_or_ge a e with low | high
    · have place : 2 ^ (a + 1) ≤ 2 ^ e := Nat.pow_le_pow_right (by decide) low
      refine .inr ⟨by omega, lt_of_lt_of_le (Nat.mul_lt_mul_of_pos_right (show _ < 2 ^ 24 by omega) (Nat.two_pow_pos a)) ?_⟩
      rw [pow_succ] at place
      omega
    · obtain ⟨d, rfl⟩ := Nat.exists_eq_add_of_le high
      exact .inl ⟨(2 ^ 23 + p % 2 ^ 23) * 2 ^ d, by rw [pow_add, Nat.mul_assoc, Nat.mul_comm (2 ^ e)]⟩

/-- A significand of at most 24 bits, or rounded up to 2^24, at a last place: the pattern `roundUnits` makes of it. -/
theorem patternUnits_significand {e m : Nat} (top : m ≤ 2 ^ 24) (normal : e = 0 ∨ 2 ^ 23 ≤ m) :
    patternUnits (2 ^ 23 * e + m) = m * 2 ^ e := by
  unfold patternUnits
  by_cases subnormal : 2 ^ 23 * e + m < 2 ^ 23
  · obtain rfl : e = 0 := by omega
    rw [if_pos subnormal]
    simp
  · rw [if_neg subnormal]
    by_cases carries : m = 2 ^ 24
    · rw [show (2 ^ 23 * e + m) / 2 ^ 23 - 1 = e + 1 by omega, show (2 ^ 23 * e + m) % 2 ^ 23 = 0 by omega, carries, pow_succ]
      omega
    · rw [show (2 ^ 23 * e + m) / 2 ^ 23 - 1 = e by omega, show 2 ^ 23 + (2 ^ 23 * e + m) % 2 ^ 23 = m by omega]

/-! ### fl32 -/

section round
variable {num den : Nat} (hd : 0 < den)
include hd

/-- A magnitude with a last place above the unit fills the significand. -/
theorem significand_full (above : 0 < lastPlace (num / den)) :
    2 ^ 23 ≤ num / (den * 2 ^ lastPlace (num / den)) ∧ 2 ^ 23 * (den * 2 ^ lastPlace (num / den)) ≤ num := by
  have full := two_pow_le_of_lastPlace_pos above
  rw [Nat.le_div_iff_mul_le hd, pow_add, Nat.mul_assoc, Nat.mul_comm _ den] at full
  exact ⟨(Nat.le_div_iff_mul_le (Nat.mul_pos hd (Nat.two_pow_pos _))).mpr full, full⟩

theorem patternUnits_roundUnits (finite : roundUnits num den < f32Inf) :
    patternUnits (roundUnits num den) =
      nearestEven num (den * 2 ^ lastPlace (num / den)) * 2 ^ lastPlace (num / den) := by
  have exact_sum : roundUnits num den =
      2 ^ 23 * lastPlace (num / den) + nearestEven num (den * 2 ^ lastPlace (num / den)) := by
    unfold roundUnits at finite ⊢
    dsimp only at finite ⊢
    omega
  rw [exact_sum]
  refine patternUnits_significand (roundedSignificand_le num den) ((Nat.eq_zero_or_pos _).imp_right fun above => ?_)
  exact (significand_full hd above).1.trans (div_le_nearestEven _ _)

/-- R13, D23: of all patterns the rounded one is nearest, and it is even where another is as near. -/
theorem roundUnits_nearest (finite : roundUnits num den < f32Inf) (p : Nat) :
    gap num den (patternUnits (roundUnits num den)) ≤ gap num den (patternUnits p) ∧
      (gap num den (patternUnits (roundUnits num den)) = gap num den (patternUnits p) → p ≠ roundUnits num den →
        roundUnits num den % 2 = 0) := by
  have units := patternUnits_roundUnits hd finite
  have even : roundUnits num den % 2 = nearestEven num (den * 2 ^ lastPlace (num / den)) % 2 := by
    unfold roundUnits at finite ⊢
    dsimp only at finite ⊢
    omega
  have full := significand_full (num := num) hd
  have nearest := nearestEven_nearest num (Nat.mul_pos hd (Nat.two_pow_pos (lastPlace (num / den))))
  rw [units, gap_mul, even]
  rcases patternUnits_grid p (lastPlace (num / den)) with ⟨z, on_grid⟩ | ⟨above, below⟩
  · rw [on_grid, gap_mul]
    refine ⟨(nearest z).1, fun equal ne => (nearest z).2 equal fun same => ne (patternUnits_injective ?_)⟩
    rw [on_grid, units, same]
  · have corner := (nearest (2 ^ 23)).1
    have strict : gap num (den * 2 ^ lastPlace (num / den)) (2 ^ 23) < gap num den (patternUnits p) := by
      have scaled := Nat.mul_lt_mul_of_pos_right below hd
      have reached := (full above).2
      rw [show 2 ^ 23 * 2 ^ lastPlace (num / den) * den = 2 ^ 23 * (den * 2 ^ lastPlace (num / den)) by ring] at scaled
      unfold gap
      omega
    exact ⟨by omega, fun equal => by omega⟩

/-- D23: the rounding overflows from the half-way point past the largest finite value on. -/
theorem roundUnits_lt_inf_iff : roundUnits num den < f32Inf ↔ num < (2 ^ 25 - 1) * 2 ^ 252 * den := by
  have finite_iff : roundUnits num den < f32Inf ↔
      2 ^ 23 * lastPlace (num / den) + nearestEven num (den * 2 ^ lastPlace (num / den)) < 2 ^ 23 * 255 := by
    simp only [roundUnits, f32Inf]
    omega
  have top := roundedSignificand_le num den
  have below := lt_two_pow_lastPlace (num / den)
  rw [Nat.div_lt_iff_lt_mul hd, pow_add] at below
  rw [finite_iff]
  rcases Nat.lt_trichotomy (lastPlace (num / den)) 253 with small | last | large
  · have place : 2 ^ lastPlace (num / den) ≤ 2 ^ 252 := Nat.pow_le_pow_right (by decide) (by omega)
    have scaled := Nat.mul_le_mul_right den (Nat.mul_le_mul_left (2 ^ 24) place)
    omega
  · have threshold := nearestEven_lt_iff num (Nat.mul_pos hd (Nat.two_pow_pos 253)) (top := 2 ^ 24) (by decide)
    rw [last] at top ⊢
    omega
  · obtain ⟨normal, reached⟩ := significand_full hd (num := num) (by omega)
    have scaled : den * 2 ^ 254 ≤ den * 2 ^ lastPlace (num / den) :=
      Nat.mul_le_mul_left _ (Nat.pow_le_pow_right (by decide) large)
    have full := normal.trans (div_le_nearestEven _ _)
    omega
end round

/-- Settles O53. -/
theorem roundingIsNearestTiesToEven : Obligations.RoundingIsNearestTiesToEven := by
  unfold Obligations.RoundingIsNearestTiesToEven
  intro num den p hd _ finite
  exact roundUnits_nearest hd finite p

end Sys2Proof.Machine
end

section
/-! The operations of the datapath: each rounds the exact result once (R13, D23). -/

namespace Sys2Proof.Machine

/-! ### Packed patterns -/

theorem f32Neg_pack {neg : Bool} {p : Nat} (h : p ≤ f32Inf) : f32Neg (f32Pack neg p) = neg := by
  unfold f32Inf at h
  rw [f32Neg, BitVec.msb_eq_decide, f32Pack, BitVec.toNat_ofNat]
  cases neg <;> simp <;> omega

theorem f32Units_pack {neg : Bool} {p : Nat} (h : p ≤ f32Inf) : f32Units (f32Pack neg p) = patternUnits p := by
  rw [f32Units, f32Abs_pack h]

theorem f32Int_pack {neg : Bool} {p : Nat} (h : p ≤ f32Inf) : f32Int (f32Pack neg p) = signed neg (patternUnits p) := by
  rw [f32Int_eq_signed, f32Neg_pack h, f32Units_pack h]

theorem f32Finite_pack {neg : Bool} {p : Nat} (h : p ≤ f32Inf) : f32Finite (f32Pack neg p) = true ↔ p < f32Inf := by
  rw [f32Finite_iff, f32Abs_pack h]

theorem pack_parity (neg : Bool) (p : Nat) : (f32Pack neg p).toNat % 2 = p % 2 := by
  rw [f32Pack, BitVec.toNat_ofNat]
  split <;> omega

/-! ### Distances with a sign -/

theorem natAbs_signed_sub_same (neg : Bool) (num den u : Nat) :
    (signed neg u * den - signed neg num).natAbs = gap num den u := by
  unfold signed gap
  push_cast
  cases neg
  · rfl
  · simp only [if_true, Int.neg_mul]
    omega

theorem natAbs_signed_sub_opposite (neg : Bool) (num den u : Nat) :
    (signed (!neg) u * den - signed neg num).natAbs = u * den + num := by
  have product : ((u * den : Nat) : Int) = (u : Int) * den := Nat.cast_mul u den
  cases neg
  · simp only [signed, Bool.not_false, if_true, Bool.false_eq_true, if_false, Int.neg_mul]
    omega
  · simp only [signed, Bool.not_true, if_true, Bool.false_eq_true, if_false]
    omega

/-- R13, D23: a packed rounding is `fl32` of the exact value with that sign. A value of the other sign lies no nearer than 0. -/
theorem nearest32_pack (neg : Bool) (num : Nat) {den : Nat} (hd : 0 < den) :
    Nearest32 (signed neg num) den (f32Pack neg (roundUnits num den)) := by
  have inf := roundUnits_le_inf num den
  have compare (finite : roundUnits num den < f32Inf) (p : F32) :
      gap num den (patternUnits (roundUnits num den)) ≤ (f32Int p * den - signed neg num).natAbs ∧
        (gap num den (patternUnits (roundUnits num den)) = (f32Int p * den - signed neg num).natAbs →
          f32Int p ≠ signed neg (patternUnits (roundUnits num den)) → roundUnits num den % 2 = 0) := by
    rw [f32Int_eq_signed]
    by_cases sign : f32Neg p = neg
    · obtain ⟨nearest, tie⟩ := roundUnits_nearest hd finite (f32Abs p)
      rw [sign, natAbs_signed_sub_same]
      exact ⟨nearest, fun equal ne => tie equal fun same => ne (by rw [f32Units, same])⟩
    · obtain ⟨nearest, tie⟩ := roundUnits_nearest hd finite 0
      rw [show f32Neg p = !neg by simpa [Bool.eq_not] using sign, natAbs_signed_sub_opposite]
      rw [show patternUnits 0 = 0 by decide, gap_zero] at nearest tie
      refine ⟨nearest.trans (Nat.le_add_left _ _), fun equal _ => ?_⟩
      by_cases zero : roundUnits num den = 0
      · rw [zero]
      · exact tie (by omega) (Ne.symm zero)
  constructor
  · rw [f32Finite_pack inf, natAbs_signed, roundUnits_lt_inf_iff hd]
  · intro finite p _
    rw [f32Int_pack inf, natAbs_signed_sub_same]
    exact (compare ((f32Finite_pack inf).mp finite) p).1
  · intro finite p _ equal ne
    rw [f32Int_pack inf, natAbs_signed_sub_same] at equal
    rw [f32Int_pack inf] at ne
    rw [pack_parity]
    exact (compare ((f32Finite_pack inf).mp finite) p).2 equal ne

/-! ### The four operations on finite operands -/

theorem nearest32_ofNat (n : Nat) : Nearest32 (2 ^ 149 * n : Nat) 1 (f32OfNat n) :=
  nearest32_pack false (2 ^ 149 * n) Nat.one_pos

section operands
variable {a b : F32} (ha : f32Finite a = true) (hb : f32Finite b = true)
include ha hb

theorem f32Add_of_finite : f32Add a b =
    if f32Int a + f32Int b = 0 then f32Pack (f32Neg a && f32Neg b) 0
    else f32Pack (f32Int a + f32Int b < 0) (roundUnits (f32Int a + f32Int b).natAbs 1) := by
  have na := not_isNan_of_finite (f32Finite_iff.mp ha)
  have nb := not_isNan_of_finite (f32Finite_iff.mp hb)
  simp only [f32Add, na, nb, ha, hb, Bool.or_self, Bool.and_self, if_true, Bool.false_eq_true, if_false]

theorem f32Mul_of_finite :
    f32Mul a b = f32Pack (f32Neg a != f32Neg b) (roundUnits (f32Units a * f32Units b) (2 ^ 149)) := by
  have na := not_isNan_of_finite (f32Finite_iff.mp ha)
  have nb := not_isNan_of_finite (f32Finite_iff.mp hb)
  simp only [f32Mul, na, nb, ha, hb, Bool.or_self, Bool.and_self, if_true, Bool.false_eq_true, if_false]

theorem f32Div_of_finite (divisor : f32Abs b ≠ 0) :
    f32Div a b = f32Pack (f32Neg a != f32Neg b) (roundUnits (2 ^ 149 * f32Units a) (f32Units b)) := by
  have na := not_isNan_of_finite (f32Finite_iff.mp ha)
  have nb := not_isNan_of_finite (f32Finite_iff.mp hb)
  simp only [f32Div, na, nb, ha, hb, Bool.or_self, Bool.and_self, if_true, Bool.false_eq_true, if_false, divisor]

theorem nearest32_add : Nearest32 (f32Int a + f32Int b) 1 (f32Add a b) := by
  rw [f32Add_of_finite ha hb]
  generalize f32Int a + f32Int b = sum
  split_ifs with zero
  · rw [zero]
    have rounded := nearest32_pack (f32Neg a && f32Neg b) 0 Nat.one_pos
    rw [show roundUnits 0 1 = 0 by decide, show signed (f32Neg a && f32Neg b) 0 = 0 by simp [signed]] at rounded
    exact rounded
  · have sign : signed (sum < 0) sum.natAbs = sum := by
      simp only [signed, decide_eq_true_eq]
      split_ifs <;> omega
    have rounded := nearest32_pack (sum < 0) sum.natAbs Nat.one_pos
    rwa [sign] at rounded

theorem nearest32_mul : Nearest32 (f32Int a * f32Int b) (2 ^ 149) (f32Mul a b) := by
  have sign : signed (f32Neg a != f32Neg b) (f32Units a * f32Units b) = f32Int a * f32Int b := by
    rw [f32Int_eq_signed, f32Int_eq_signed]
    cases f32Neg a <;> cases f32Neg b <;> simp [signed]
  rw [f32Mul_of_finite ha hb, ← sign]
  exact nearest32_pack _ _ (Nat.two_pow_pos 149)

theorem nearest32_div (divisor : f32Int b ≠ 0) :
    Nearest32 (2 ^ 149 * f32Int a * (f32Int b).sign) (f32Int b).natAbs (f32Div a b) := by
  have units : 0 < f32Units b := by
    rw [← natAbs_f32Int]
    exact Int.natAbs_pos.mpr divisor
  have nonzero : f32Abs b ≠ 0 := fun zero => by
    rw [f32Units, zero] at units
    exact absurd units (by decide)
  have sign : signed (f32Neg a != f32Neg b) (2 ^ 149 * f32Units a) = 2 ^ 149 * f32Int a * (f32Int b).sign := by
    have positive : (f32Units b : Int).sign = 1 := Int.sign_eq_one_of_pos (by exact_mod_cast units)
    rw [f32Int_eq_signed, f32Int_eq_signed]
    cases f32Neg a <;> cases f32Neg b <;> simp [signed, positive]
  rw [f32Div_of_finite ha hb nonzero, ← sign, natAbs_f32Int]
  exact nearest32_pack _ _ units
end operands

/-- Settles O57. -/
theorem arithmeticIsCorrectlyRounded : Obligations.ArithmeticIsCorrectlyRounded := by
  unfold Obligations.ArithmeticIsCorrectlyRounded
  exact ⟨nearest32_ofNat, fun a b ha hb => ⟨nearest32_add ha hb, nearest32_mul ha hb, nearest32_div ha hb⟩⟩

/-- A magnitude that is a whole number of last places is a pattern's. -/
theorem patternUnits_roundUnits_exact {num : Nat} (finite : roundUnits num 1 < f32Inf)
    (whole : 2 ^ lastPlace num ∣ num) : patternUnits (roundUnits num 1) = num := by
  obtain ⟨m, hm⟩ := whole
  have units := patternUnits_roundUnits Nat.one_pos finite
  rw [Nat.div_one, Nat.one_mul] at units
  generalize lastPlace num = e at *
  rw [units, hm, nearestEven_mul (Nat.two_pow_pos e), Nat.mul_comm]

/-- Settles O54: below 2^24 the last place of `n` units of 1 is at most 1. -/
theorem integerConversionIsExact : Obligations.IntegerConversionIsExact := by
  unfold Obligations.IntegerConversionIsExact
  intro n small
  have finite : roundUnits (2 ^ 149 * n) 1 < f32Inf := (roundUnits_lt_inf_iff Nat.one_pos).mpr (by omega)
  have place : lastPlace (2 ^ 149 * n) ≤ 149 := by
    by_contra above
    have full := two_pow_le_of_lastPlace_pos (q := 2 ^ 149 * n) (by omega)
    have large : 2 ^ 173 ≤ 2 ^ (23 + lastPlace (2 ^ 149 * n)) := Nat.pow_le_pow_right (by decide) (by omega)
    omega
  have whole : 2 ^ lastPlace (2 ^ 149 * n) ∣ 2 ^ 149 * n := (Nat.pow_dvd_pow 2 place).mul_right n
  refine ⟨(f32Finite_pack finite.le).mpr finite, ?_⟩
  rw [f32OfNat, f32Int_pack finite.le, patternUnits_roundUnits_exact finite whole]
  rfl

end Sys2Proof.Machine
end
